-- ==== Sys2Proof/Word.lean ====
section
/-! DEFINITION. The bit-vector types of the sixfive CORE (spec 00_scope.md R6, R7): every value is unsigned, bit 0 is the
least significant bit, and `+` on words is addition modulo 2^16. -/

namespace Sys2Proof

/-- A 16-bit word: a memory cell, the accumulator, the program counter or an instruction (R6 `WORD_BITS`, `PC_BITS`). -/
abbrev Word := BitVec 16

/-- The 8-bit operand field `word[7:0]` of an instruction (R35); also one byte of the byte list that holds memory. -/
abbrev Byte := BitVec 8

/-- A 4-bit field: the opcode `word[15:12]` or the mode `word[11:8]` of an instruction (R35). -/
abbrev Nibble := BitVec 4

end Sys2Proof
end

