-- ==== Sys2Proof/Config.lean ====
section
/-! DEFINITION. What an implementation fixes (spec 00_scope.md R6): the instruction forms, the type of the opcode-map
parameter, the memory's extent, the reset address, and the values `State.reset` takes for the launch parameters `acc0`,
`z0` and `mem0`, which the spec leaves open. The reference opcode map itself stands in Decode.lean. -/

namespace Sys2Proof

/-- The twelve instruction forms of R39. No other combination of mnemonic and addressing mode is an instruction. -/
inductive Form where
  | loadImm | loadDir | loadInd
  | storDir | storInd
  | addImm | addDir
  | cmpImm | cmpDir
  | breq | jump | halt
deriving DecidableEq, Repr

/-- The opcode map is a parameter of the model (R6, R40; D1): from an opcode and a mode to the form they name. -/
abbrev OpMap := Nibble → Nibble → Option Form

/-- `MEM_WORDS` (R6): addresses run from 0x00 to 0xFF. -/
def Config.memWords : Nat := 0x100

/-- The value of `PC` after reset (R6, R18). -/
def Config.resetPc : Word := 0x0000

/-- The value `State.reset` takes for `acc0`. DESIGN CHOICE (log entry 2, unsafe): the spec leaves it open (D5). -/
def Config.acc0 : Word := 0x0000

/-- The value `State.reset` takes for `z0`. DESIGN CHOICE (log entry 3, unsafe): the spec leaves it open (D6). -/
def Config.z0 : Bool := false

/-- What a byte of memory reads as where no entry of the memory list names it, and so `mem0` in `State.reset`.
DESIGN CHOICE (log entry 4, unsafe): the spec leaves `mem0` open (D7). -/
def Config.unlistedByte : Byte := 0x00

end Sys2Proof
end

