-- ==== Sys2Proof/Syntax.lean ====
section
/-! DEFINITION. The instructions of the sixfive 16-bit ISA: one constructor for each row of spec/opcode_table.json
(spec 30_encoding.md R39, R40). -/

namespace Sys2Proof

/-- A decoded instruction: a form of R39 with its operand byte. `halt` carries none, because the byte is ignored (R43). -/
inductive Instr where
  /-- `LOAD #$xx`: the immediate byte (R60). -/
  | loadImm (imm : Byte)
  /-- `LOAD $xx`: the direct address (R61). -/
  | loadDir (addr : Byte)
  /-- `LOAD ($xx)`: the address of the pointer cell (R62). -/
  | loadInd (ptr : Byte)
  /-- `STOR $xx`: the direct address (R63). -/
  | storDir (addr : Byte)
  /-- `STOR ($xx)`: the address of the pointer cell (R64). -/
  | storInd (ptr : Byte)
  /-- `ADD #$xx`: the immediate byte (R66). -/
  | addImm (imm : Byte)
  /-- `ADD $xx`: the direct address (R67). -/
  | addDir (addr : Byte)
  /-- `CMP #$xx`: the immediate byte (R69). -/
  | cmpImm (imm : Byte)
  /-- `CMP $xx`: the direct address (R70). -/
  | cmpDir (addr : Byte)
  /-- `BREQ $xx`: the branch target (R73). -/
  | breq (target : Byte)
  /-- `JUMP $xx`: the jump target (R74). -/
  | jump (target : Byte)
  /-- `HALT` (R75). -/
  | halt
deriving DecidableEq, Repr

/-- The form an instruction has (R39). -/
def Instr.form : Instr → Form
  | .loadImm _ => .loadImm
  | .loadDir _ => .loadDir
  | .loadInd _ => .loadInd
  | .storDir _ => .storDir
  | .storInd _ => .storInd
  | .addImm _ => .addImm
  | .addDir _ => .addDir
  | .cmpImm _ => .cmpImm
  | .cmpDir _ => .cmpDir
  | .breq _ => .breq
  | .jump _ => .jump
  | .halt => .halt

/-- The operand byte an assembler writes for an instruction: 0x00 for HALT (R43, R45; D3). -/
def Instr.operand : Instr → Byte
  | .loadImm x | .loadDir x | .loadInd x | .storDir x | .storInd x => x
  | .addImm x | .addDir x | .cmpImm x | .cmpDir x | .breq x | .jump x => x
  | .halt => 0x00

end Sys2Proof
end

