-- ==== Sys2Proof/WellFormed.lean ====
section
/-! DEFINITION. What a legal opcode map is, and which instructions a map can encode (spec 30_encoding.md R40, R41; D1).
An operand is a byte by its type, so the only check on an instruction is that the map gives its form a high byte. -/

namespace Sys2Proof

/-- The twelve forms of R39 in the order of the source's table. -/
def Form.all : List Form :=
  [.loadImm, .loadDir, .loadInd, .storDir, .storInd, .addImm, .addDir, .cmpImm, .cmpDir, .breq, .jump, .halt]

/-- The sixteen values of a 4-bit field. -/
def Nibble.all : List Nibble :=
  (List.range 16).map (BitVec.ofNat 4)

/-- All 256 (opcode, mode) pairs in the order of the high byte. -/
def OpMap.pairs : List (Nibble × Nibble) :=
  Nibble.all.flatMap fun opcode => Nibble.all.map fun mode => (opcode, mode)

/-- The map gives the form at least one high byte. -/
def OpMap.names (m : OpMap) (f : Form) : Bool :=
  OpMap.pairs.any fun p => m p.1 p.2 == some f

/-- The maps a model may take (R41; D1): high byte 0x10 is LOAD #imm, high byte 0x12 is STOR $addr, and every form of R39
has an encoding. DEDUCED (log entry 18): a map may give one form several high bytes. -/
def OpMap.lawful (m : OpMap) : Bool :=
  m 0x1 0x0 == some .loadImm && m 0x1 0x2 == some .storDir && Form.all.all fun f => m.names f

/-- An instruction is well formed under a map that can encode it. -/
def Instr.wellFormed (m : OpMap) (i : Instr) : Bool :=
  m.names i.form

end Sys2Proof
end

