-- ==== Sys2Proof/Decode.lean ====
section
/-! DEFINITION. The reference opcode map, the decoder and the encoder (spec 30_encoding.md R35 to R44; opcode_table.json).
Both the decoder and the encoder take the opcode map as a parameter; `decode` and `encode` are the reference map's. -/

namespace Sys2Proof

/-- `opcode = word[15:12]` (R35). -/
def opcodeOf (w : Word) : Nibble := w.extractLsb' 12 4

/-- `mode = word[11:8]` (R35). -/
def modeOf (w : Word) : Nibble := w.extractLsb' 8 4

/-- `operand = word[7:0]` (R35). -/
def operandOf (w : Word) : Byte := w.extractLsb' 0 8

/-- `word = {opcode, mode, operand}` (R35). -/
def wordOf (opcode mode : Nibble) (operand : Byte) : Word := opcode ++ mode ++ operand

/-- One row of the opcode map: the high byte's two halves and the form they name. -/
structure OpRow where
  opcode : Nibble
  mode : Nibble
  form : Form
deriving DecidableEq, Repr

/-- The reference opcode map, row by row (R40). Only 0x10 is the source's own and 0x12 is inferred from its example words
(R41); every other row is the spec's choice (D1, D2; log entry 1). -/
def opTable : List OpRow :=
  [ ⟨0x1, 0x0, .loadImm⟩,
    ⟨0x1, 0x1, .loadDir⟩,
    ⟨0x1, 0x5, .loadInd⟩,
    ⟨0x1, 0x2, .storDir⟩,
    ⟨0x1, 0x6, .storInd⟩,
    ⟨0x2, 0x0, .addImm⟩,
    ⟨0x2, 0x1, .addDir⟩,
    ⟨0x3, 0x0, .cmpImm⟩,
    ⟨0x3, 0x1, .cmpDir⟩,
    ⟨0x4, 0x1, .breq⟩,
    ⟨0x5, 0x1, .jump⟩,
    ⟨0xF, 0x0, .halt⟩ ]

/-- The reference value of the parameter `opmap` (R40). -/
def refOpmap : OpMap := fun opcode mode =>
  (opTable.find? fun r => r.opcode == opcode && r.mode == mode).map (·.form)

/-- Why a word is no instruction. -/
inductive DecodeReject where
  /-- The pair names no form in the map: the `Invalid` of R44, which the step reports as `Fault(InvalidOpcode)` (R42, R51). -/
  | invalidOpcode (opcode mode : Nibble)
deriving DecidableEq, Repr

/-- A form with its operand byte (R44). HALT drops the byte (R43; D3). -/
def Form.instr (f : Form) (operand : Byte) : Instr :=
  match f with
  | .loadImm => .loadImm operand
  | .loadDir => .loadDir operand
  | .loadInd => .loadInd operand
  | .storDir => .storDir operand
  | .storInd => .storInd operand
  | .addImm => .addImm operand
  | .addDir => .addDir operand
  | .cmpImm => .cmpImm operand
  | .cmpDir => .cmpDir operand
  | .breq => .breq operand
  | .jump => .jump operand
  | .halt => .halt

/-- `decode(w)` under an opcode map, total on every word (R44). -/
def decodeWith (m : OpMap) (w : Word) : Except DecodeReject Instr :=
  match m (opcodeOf w) (modeOf w) with
  | some f => .ok (f.instr (operandOf w))
  | none => .error (.invalidOpcode (opcodeOf w) (modeOf w))

/-- `decode(w)` under the reference map (R40, R44). -/
def decode (w : Word) : Except DecodeReject Instr := decodeWith refOpmap w

/-- The word of an instruction under an opcode map: the lowest high byte that names its form, with its operand byte; none
where the map gives the form no high byte. -/
def encodeWith (m : OpMap) (i : Instr) : Option Word :=
  (OpMap.pairs.find? fun p => m p.1 p.2 == some i.form).map fun p => wordOf p.1 p.2 i.operand

/-- The word of an instruction under the reference map, from the word patterns of R40 and R45. -/
def encode : Instr → Word
  | .loadImm x => wordOf 0x1 0x0 x
  | .loadDir x => wordOf 0x1 0x1 x
  | .loadInd x => wordOf 0x1 0x5 x
  | .storDir x => wordOf 0x1 0x2 x
  | .storInd x => wordOf 0x1 0x6 x
  | .addImm x => wordOf 0x2 0x0 x
  | .addDir x => wordOf 0x2 0x1 x
  | .cmpImm x => wordOf 0x3 0x0 x
  | .cmpDir x => wordOf 0x3 0x1 x
  | .breq x => wordOf 0x4 0x1 x
  | .jump x => wordOf 0x5 0x1 x
  | .halt => 0xF000

/-- The instruction word that the opcode table's numbering gives: the low `nbits` bits of `w`, zero above them. Every
instruction is one word (R36), so 16 bits are all there is. -/
def tableWord (nbits w : Nat) : Word := BitVec.ofNat 16 (w % 2 ^ nbits)

/-- What the decoder reads from an instruction whose bits are `w`, numbered as spec/opcode_table.json numbers them. -/
def decodeTableWord (nbits w : Nat) : Option Instr := (decode (tableWord nbits w)).toOption

end Sys2Proof
end

