-- ==== Sys2Proof/Machine/State.lean ====
section
/-! DEFINITION. The state of the CORE, whole (spec 10_state.md R10), the reasons a step or a host operation can stop with,
and the state after reset (R18). -/

namespace Sys2Proof.Machine

/-- The two faults of the CORE (R10, R77). The CORE does not stop the model with one: it records it in `STATUS` (R54), so
the reason is part of a next state, and no step or meaning of this model answers `Host.Outcome.fault`. -/
inductive Fault where
  /-- Raised by the decode phase of a step whose fetched word names no form in the opcode map (R42, R51). Safe: the machine
  enters `Faulted` as the spec says. -/
  | invalidOpcode
  /-- Raised by the address decoder for an address of 0x0100 or more: the fetch, or the data access of an indirect LOAD or
  STOR (R21, R57). Safe: the machine enters `Faulted` as the spec says. -/
  | outOfBounds
deriving DecidableEq, Repr

/-- What the model gives no meaning to. -/
inductive Refusal where
  /-- Raised by an arm of `exec` whose instruction has no meaning yet; no arm is so. Safe: nothing is claimed of it. -/
  | notModelled (mnemonic : String)
  /-- Raised by the host operation `load` when `STATUS` is not Ready, where the spec says that a model refuses the call
  (R93, R34; D10). Safe: nothing is claimed of it. -/
  | loadAfterFirstStep
  /-- Raised by inspection of an address outside 0x00 to 0xFF, where the spec says that a model refuses it (R96). Safe:
  nothing is claimed of it. -/
  | inspectOutsideMemory
deriving DecidableEq, Repr

/-- The status register `STATUS` (R15): its legal values and no other. Its bit encoding is `Status.bits`. -/
inductive Status where
  | ready
  | running
  | halted
  | faulted (reason : Fault)
deriving DecidableEq, Repr

/-- The storage of `MEM`: 256 words of two bytes (R20), as the bytes that differ from `Config.unlistedByte`, by rising
address. Word address `a` owns byte addresses `2a` and `2a+1` (R24; log entry 5). -/
abbrev Memory := List Host.Cell

/-- The one form in which a memory is listed: addresses strictly rising and inside the 512 bytes, and no entry equal to what
an unlisted address reads as, so that equal memories are equal data. -/
abbrev Memory.wf (m : Memory) : Prop :=
  List.Pairwise (fun p q => p.1 < q.1) m ∧ ∀ c ∈ m, c.1 < 2 * Config.memWords ∧ c.2 ≠ Config.unlistedByte

/-- The state of the CORE: "this record and nothing else" (R10). -/
structure State where
  /-- The accumulator `ACC` (R11). -/
  acc : Word
  /-- The program counter `PC`, a word address (R12). -/
  pc : Word
  /-- The zero/equal flag `Z` (R13). -/
  z : Bool
  /-- The memory `MEM`, code and data (R16). -/
  mem : Memory
  /-- The status register `STATUS` (R15). -/
  status : Status
deriving DecidableEq, Repr

/-- The machine right after reset (R18, R90): `PC` and `STATUS` as the spec states them; `ACC`, `Z` and memory at the values
Config names for the open launch parameters (log entries 2, 3 and 4). `construct` in Machine/HostOps.lean is reset at any
value of those parameters. -/
def State.reset : State where
  acc := Config.acc0
  pc := Config.resetPc
  z := Config.z0
  mem := []
  status := .ready

end Sys2Proof.Machine
end

