-- ==== Sys2Proof/Machine/Flags.lean ====
section
/-! DEFINITION. The ALU's two operations (spec 42_alu.md R65, R68). `Z` is the only flag, and CMP its only writer (R13). -/

namespace Sys2Proof.Machine

/-- The addition law: unsigned addition modulo 2^16, with no carry kept and no flag written (R65; log entry 8). -/
def addWords (a b : Word) : Word := BitVec.ofNat 16 ((a.toNat + b.toNat) % 2 ^ 16)

/-- The comparison law, and the one flag computation: equality of all 16 bits (R68). -/
def equalFlag (a b : Word) : Bool := a == b

end Sys2Proof.Machine
end

