-- ==== Sys2Proof/Machine/Ops.lean ====
section
/-! DEFINITION. The operations every instruction is built from: bytes and words of memory, the address decoder and the access
primitives (spec 20_memory.md R21, R22), the fetch (40_execution_cycle.md R50), the pending writes of a step and their
commit (R52, R53), taking a fault (R54), and the status register's fields and replies (10_state.md R15, R59). -/

namespace Sys2Proof.Machine

/-! ### Memory as bytes -/

/-- The byte at a byte address. -/
def Memory.readByte : Memory → Nat → Byte
  | [], _ => Config.unlistedByte
  | c :: rest, a => if a = c.1 then c.2 else Memory.readByte rest a

/-- Put an entry in front of a list, or leave it out where it says what an unlisted address reads as. -/
def Memory.entry (a : Nat) (v : Byte) (rest : Memory) : Memory :=
  if v = Config.unlistedByte then rest else (a, v) :: rest

/-- Write the byte at a byte address, keeping the canonical form. -/
def Memory.writeByte : Memory → Nat → Byte → Memory
  | [], a, v => Memory.entry a v []
  | c :: rest, a, v =>
    if a < c.1 then Memory.entry a v (c :: rest)
    else if a = c.1 then Memory.entry a v rest
    else c :: Memory.writeByte rest a v

/-! ### Memory as words -/

/-- `MEM[a]` (R22): the whole word, its most significant byte at the lower byte address (log entry 5). -/
def Memory.readWord (m : Memory) (a : Nat) : Word :=
  m.readByte (2 * a) ++ m.readByte (2 * a + 1)

/-- `MEM[a] <- w` (R22): the whole cell is replaced. -/
def Memory.writeWord (m : Memory) (a : Nat) (w : Word) : Memory :=
  (m.writeByte (2 * a) (w.extractLsb' 8 8)).writeByte (2 * a + 1) (w.extractLsb' 0 8)

/-- Consecutive words written from a word address on: image word `i` goes to `origin + i` (R93). -/
def Memory.writeWords : Memory → Nat → List Word → Memory
  | m, _, [] => m
  | m, a, w :: rest => Memory.writeWords (m.writeWord a w) (a + 1) rest

/-- The memory whose cells below `n` hold the words of `f`. -/
def Memory.fill (f : Nat → Word) : Nat → Memory
  | 0 => []
  | n + 1 => (Memory.fill f n).writeWord n (f n)

/-- The memory that holds `mem0(a)` in every cell (R18). Irreducible, so that no proof unfolds 256 writes by accident. -/
@[irreducible] def Memory.ofCells (mem0 : Byte → Word) : Memory :=
  Memory.fill (fun a => mem0 (BitVec.ofNat 8 a)) Config.memWords

/-! ### The address decoder and the access primitives -/

/-- The address decoder admits `a` if and only if `a < 0x0100` (R21). -/
def inMemory (a : Word) : Bool := a.toNat < Config.memWords

/-- `MemRead(a, 1)` (R22). -/
def State.memRead (s : State) (a : Word) : Except Fault Word :=
  if inMemory a then .ok (s.mem.readWord a.toNat) else .error .outOfBounds

/-- `MemWrite(a, 1, v)` (R22) as a pending write: the address is checked now, the cell changes at commit (R29, R53). -/
def memWrite (a v : Word) : Except Fault (Word × Word) :=
  if inMemory a then .ok (a, v) else .error .outOfBounds

/-- The fetch phase: `w <- MemRead(PC, 1)` (R50). -/
def State.fetch (s : State) : Except Fault Word := s.memRead s.pc

/-! ### Pending writes, commit and fault -/

/-- What the execute phase computes (R52, R58): a new `ACC`, a new `Z`, at most one memory write, the next `PC`, and whether
the instruction halts. -/
structure Pending where
  acc : Word
  z : Bool
  write : Option (Word × Word)
  nextPc : Word
  halt : Bool
deriving DecidableEq, Repr

/-- The pending writes before an instruction's rule names its own (R55, R58): nothing changes but `PC`, which advances by one
word modulo 2^16. -/
def State.pending (s : State) : Pending where
  acc := s.acc
  z := s.z
  write := none
  nextPc := s.pc + 1
  halt := false

/-- The memory after a step's pending write. -/
def State.memAfter (s : State) : Option (Word × Word) → Memory
  | none => s.mem
  | some (a, v) => s.mem.writeWord a.toNat v

/-- Commit: every pending write takes effect at once, and `STATUS` becomes Running, or Halted for HALT (R53). -/
def State.commit (s : State) (p : Pending) : State where
  acc := p.acc
  pc := p.nextPc
  z := p.z
  mem := s.memAfter p.write
  status := if p.halt then .halted else .running

/-- Taking a fault: every pending write is discarded, `ACC`, `Z`, `PC` and `MEM` keep their values, and `STATUS` becomes
`Faulted(r)` (R54). Control goes nowhere: the CORE has no trap vector, saves no other register (R78, R81), and has no return
from a fault (R82), so no operation undoes this one. -/
def State.takeFault (s : State) (r : Fault) : State := { s with status := .faulted r }

/-- The end of the execute phase: commit its pending writes (R53), or take the fault it raised (R54). -/
def State.conclude (s : State) (r : Except Fault Pending) : Host.Outcome State Fault Refusal :=
  match r with
  | .ok p => .next (s.commit p)
  | .error f => .next (s.takeFault f)

/-! ### The status register -/

/-- Halted and Faulted are terminal (R15, R49). -/
def Status.terminal : Status → Bool
  | .ready | .running => false
  | .halted | .faulted _ => true

/-- `STATUS.state`, bits [1:0] (R15; D21, log entry 15). -/
def Status.stateField : Status → BitVec 2
  | .ready => 0
  | .running => 1
  | .halted => 2
  | .faulted _ => 3

/-- The numeric code of a fault (R77; D21, log entry 15). -/
def Fault.code : Fault → BitVec 2
  | .invalidOpcode => 1
  | .outOfBounds => 2

/-- `STATUS.reason`, bits [3:2]: 0 when the state is not Faulted (R15; D21, log entry 15). -/
def Status.reasonField : Status → BitVec 2
  | .faulted r => r.code
  | _ => 0

/-- The status register as its four bits (R15). -/
def Status.bits (st : Status) : BitVec 4 := st.reasonField ++ st.stateField

/-- What a step returns (R48, R59). -/
inductive StepReply where
  | continues
  | halted
  | fault (reason : Fault)
deriving DecidableEq, Repr

/-- The result that goes with a status: a step's after it (R59), and `run(0)`'s, which answers Continue in Ready too
(R95; D9). -/
def Status.reply : Status → StepReply
  | .ready | .running => .continues
  | .halted => .halted
  | .faulted r => .fault r

end Sys2Proof.Machine
end

