-- ==== Sys2Proof/Machine/Operands.lean ====
section
/-! DEFINITION. Operand assembly (spec 30_encoding.md R38): immediate, direct, indirect and branch target. No operand is
scaled, shifted or sign-extended. -/

namespace Sys2Proof.Machine

/-- `zext_16(x)` (R7). -/
def zext16 (x : Byte) : Word := x.setWidth 16

/-- Immediate `#$xx`: the operand value. -/
def immediate (x : Byte) : Word := zext16 x

/-- Direct `$xx`: the effective address. -/
def directAddr (x : Byte) : Word := zext16 x

/-- Direct `$xx`: the operand value `MEM[ea]`. -/
def State.directValue (s : State) (x : Byte) : Except Fault Word := s.memRead (directAddr x)

/-- Indirect `($xx)`: the effective address, all 16 bits of the pointer cell. -/
def State.indirectAddr (s : State) (x : Byte) : Except Fault Word := s.memRead (zext16 x)

/-- Indirect `($xx)`: the operand value, through exactly one level of indirection. -/
def State.indirectValue (s : State) (x : Byte) : Except Fault Word := (s.indirectAddr x).bind s.memRead

/-- Branch target `$xx`: memory is not read. -/
def branchTarget (x : Byte) : Word := zext16 x

end Sys2Proof.Machine
end

