-- ==== Sys2Proof/Machine/Alu.lean ====
section
/-! DEFINITION. ADD and CMP, each immediate and direct (spec 42_alu.md). ADD writes no flag; CMP writes only `Z`. -/

namespace Sys2Proof.Machine

/-- `ADD #$xx` (R66). -/
def execAddImm (imm : Byte) (s : State) : Host.Outcome State Fault Refusal :=
  s.conclude (.ok { s.pending with acc := addWords s.acc (immediate imm) })

/-- `ADD $xx` (R67). -/
def execAddDir (addr : Byte) (s : State) : Host.Outcome State Fault Refusal :=
  s.conclude ((s.directValue addr).map fun v => { s.pending with acc := addWords s.acc v })

/-- `CMP #$xx` (R69). -/
def execCmpImm (imm : Byte) (s : State) : Host.Outcome State Fault Refusal :=
  s.conclude (.ok { s.pending with z := equalFlag s.acc (immediate imm) })

/-- `CMP $xx` (R70). -/
def execCmpDir (addr : Byte) (s : State) : Host.Outcome State Fault Refusal :=
  s.conclude ((s.directValue addr).map fun v => { s.pending with z := equalFlag s.acc v })

end Sys2Proof.Machine
end

