-- ==== Sys2Proof/Machine/Control.lean ====
section
/-! DEFINITION. BREQ, JUMP and HALT (spec 43_control.md). A target is an absolute word address inside memory (R72). -/

namespace Sys2Proof.Machine

/-- `BREQ $xx` (R73): to the target when `Z` is true, else to the next word. -/
def execBreq (target : Byte) (s : State) : Host.Outcome State Fault Refusal :=
  s.conclude (.ok { s.pending with nextPc := if s.z then branchTarget target else s.pc + 1 })

/-- `JUMP $xx` (R74). -/
def execJump (target : Byte) (s : State) : Host.Outcome State Fault Refusal :=
  s.conclude (.ok { s.pending with nextPc := branchTarget target })

/-- `HALT` (R75): `PC` keeps the address of the HALT. -/
def execHalt (s : State) : Host.Outcome State Fault Refusal :=
  s.conclude (.ok { s.pending with nextPc := s.pc, halt := true })

end Sys2Proof.Machine
end

