-- ==== Sys2Proof/Machine/LoadStore.lean ====
section
/-! DEFINITION. LOAD in three modes and STOR in two (spec 41_load_store.md). None writes `Z`, and each moves one whole word. -/

namespace Sys2Proof.Machine

/-- `LOAD #$xx` (R60). -/
def execLoadImm (imm : Byte) (s : State) : Host.Outcome State Fault Refusal :=
  s.conclude (.ok { s.pending with acc := immediate imm })

/-- `LOAD $xx` (R61). -/
def execLoadDir (addr : Byte) (s : State) : Host.Outcome State Fault Refusal :=
  s.conclude ((s.directValue addr).map fun v => { s.pending with acc := v })

/-- `LOAD ($xx)` (R62): faults when the pointer is outside memory. -/
def execLoadInd (ptr : Byte) (s : State) : Host.Outcome State Fault Refusal :=
  s.conclude ((s.indirectValue ptr).map fun v => { s.pending with acc := v })

/-- `STOR $xx` (R63). -/
def execStorDir (addr : Byte) (s : State) : Host.Outcome State Fault Refusal :=
  s.conclude ((memWrite (directAddr addr) s.acc).map fun wr => { s.pending with write := some wr })

/-- `STOR ($xx)` (R64): faults when the pointer is outside memory. -/
def execStorInd (ptr : Byte) (s : State) : Host.Outcome State Fault Refusal :=
  s.conclude (((s.indirectAddr ptr).bind fun ea => memWrite ea s.acc).map fun wr => { s.pending with write := some wr })

end Sys2Proof.Machine
end

