-- ==== Sys2Proof/Machine/Dispatch.lean ====
section
/-! DEFINITION. The opcode dispatch (spec 40_execution_cycle.md R52): the execute and commit phases of a step, one arm for each
form. A step runs it only in Ready or Running (R49); `stepWith` of Machine/Cycle.lean holds that check (log entry 17). -/

namespace Sys2Proof.Machine

def exec (i : Instr) (s : State) : Host.Outcome State Fault Refusal :=
  match i with
  | .loadImm imm => Sys2Proof.Machine.execLoadImm imm s
  | .loadDir addr => Sys2Proof.Machine.execLoadDir addr s
  | .loadInd ptr => Sys2Proof.Machine.execLoadInd ptr s
  | .storDir addr => Sys2Proof.Machine.execStorDir addr s
  | .storInd ptr => Sys2Proof.Machine.execStorInd ptr s
  | .addImm imm => Sys2Proof.Machine.execAddImm imm s
  | .addDir addr => Sys2Proof.Machine.execAddDir addr s
  | .cmpImm imm => Sys2Proof.Machine.execCmpImm imm s
  | .cmpDir addr => Sys2Proof.Machine.execCmpDir addr s
  | .breq target => Sys2Proof.Machine.execBreq target s
  | .jump target => Sys2Proof.Machine.execJump target s
  | .halt => Sys2Proof.Machine.execHalt s

end Sys2Proof.Machine
end

