-- ==== Sys2Proof/Machine/Cycle.lean ====
section
/-! DEFINITION. The fetch-decode-execute step under an opcode map (spec 40_execution_cycle.md R48 to R58), and the placing of one
instruction word where the next step fetches. -/

namespace Sys2Proof.Machine

/-- One step (R58): a no-op in a terminal state (R49); else fetch (R50), decode (R51), execute and commit (R52, R53). A fault
of any phase is taken (R54). -/
def stepWith (m : OpMap) (s : State) : Host.Outcome State Fault Refusal :=
  if s.status.terminal then .next s
  else
    match s.fetch with
    | .error f => .next (s.takeFault f)
    | .ok w =>
      match decodeWith m w with
      | .error _ => .next (s.takeFault .invalidOpcode)
      | .ok i => exec i s

/-- The state with `w` in the cell that the next step fetches, and nothing else changed where that step can fetch at all: a
`PC` outside memory is brought to the reset address, a terminal status to Ready (log entry 16). -/
def State.placeNext (s : State) (w : Word) : State :=
  let pc := if inMemory s.pc then s.pc else Config.resetPc
  { s with
    pc := pc
    mem := s.mem.writeWord pc.toNat w
    status := if s.status.terminal then .ready else s.status }

end Sys2Proof.Machine
end

