-- ==== Sys2Proof/Machine/Step.lean ====
section
/-! DEFINITION. The step of the machine at the reference opcode map, and the instruction word placed where it fetches. -/

namespace Sys2Proof.Machine

/-- `step()` (spec 40_execution_cycle.md R58) under the reference opcode map (R40; log entry 1). -/
def step (s : State) : Host.Outcome State Fault Refusal := stepWith refOpmap s

/-- The state whose next step fetches and runs the instruction that the opcode table numbers `w` (log entry 16). -/
def State.withFetchWord (s : State) (nbits w : Nat) : State := s.placeNext (tableWord nbits w)

end Sys2Proof.Machine
end

