-- ==== Sys2Proof/Machine/HostOps.lean ====
section
/-! DEFINITION. Reset at any value of the launch parameters, and the four operations the host calls: `load`, `step`, `run` and
inspection (spec 70_reset_and_hazards.md R90 to R96). -/

namespace Sys2Proof.Machine

/-- Construction of the Machine, the only reset (R18, R90): at every value of the parameters `acc0`, `z0` and `mem0`. -/
def construct (acc0 : Word) (z0 : Bool) (mem0 : Byte → Word) : State where
  acc := acc0
  pc := Config.resetPc
  z := z0
  mem := Memory.ofCells mem0
  status := .ready

/-- The bounds test of `load` (R93; D11): the origin lies in memory and the image fits what remains from it. -/
def loadFits (image : List Word) (origin : Word) : Bool :=
  inMemory origin && origin.toNat + image.length ≤ Config.memWords

/-- What `load` returns (R92, R93). -/
inductive LoadReply where
  | ok
  | outOfBounds
deriving DecidableEq, Repr

/-- `load(image, origin)` (R93): all of the image, or nothing. Refused unless `STATUS` is Ready (D10, log entry 13). -/
def load (image : List Word) (origin : Word) (s : State) : Host.Outcome (State × LoadReply) Fault Refusal :=
  if s.status = .ready then
    if loadFits image origin then
      .next ({ s with mem := s.mem.writeWords origin.toNat image }, .ok)
    else .next (s, .outOfBounds)
  else .refused .loadAfterFirstStep

/-- What `run` returns (R92, R95). -/
inductive RunReply where
  | stepped (reply : StepReply)
  | stepLimitExceeded
deriving DecidableEq, Repr

/-- The loop of `run` (R95): at most so many steps, ending at the first that does not answer Continue. -/
def runLoop (m : OpMap) : Nat → State → Host.Outcome (State × RunReply) Fault Refusal
  | 0, s => .next (s, .stepLimitExceeded)
  | n + 1, s =>
    match stepWith m s with
    | .next t => if t.status.reply = .continues then runLoop m n t else .next (t, .stepped t.status.reply)
    | .fault f => .fault f
    | .refused r => .refused r

/-- `run(max_steps)` (R95; D9, log entry 12): `run(0)` takes no step and answers for the status it finds. -/
def run (m : OpMap) (maxSteps : Nat) (s : State) : Host.Outcome (State × RunReply) Fault Refusal :=
  if maxSteps = 0 then .next (s, .stepped s.status.reply) else runLoop m maxSteps s

/-- What the host may inspect (R96). -/
inductive InspectTarget where
  | cell (a : Word)
  | acc
  | pc
  | z
  | status
deriving DecidableEq, Repr

/-- What inspection answers. -/
inductive InspectValue where
  | word (w : Word)
  | flag (b : Bool)
  | status (st : Status)
deriving DecidableEq, Repr

/-- Inspection (R96): a read with no side effect, refused outside 0x00 to 0xFF. -/
def inspect (s : State) : InspectTarget → Host.Outcome InspectValue Fault Refusal
  | .cell a => if inMemory a then .next (.word (s.mem.readWord a.toNat)) else .refused .inspectOutsideMemory
  | .acc => .next (.word s.acc)
  | .pc => .next (.word s.pc)
  | .z => .next (.flag s.z)
  | .status => .next (.status s.status)

/-- A call of the host interface (R92). -/
inductive HostOp where
  | load (image : List Word) (origin : Word)
  | step
  | run (maxSteps : Nat)
  | inspect (target : InspectTarget)
deriving DecidableEq, Repr

/-- What a call of the host interface returns (R92). -/
inductive HostReply where
  | load (reply : LoadReply)
  | step (reply : StepReply)
  | run (reply : RunReply)
  | inspect (value : InspectValue)
deriving DecidableEq, Repr

/-- The outcome of a host operation with the state after it. -/
def onNext {α β : Type} (o : Host.Outcome α Fault Refusal) (f : α → β) : Host.Outcome β Fault Refusal :=
  match o with
  | .next a => .next (f a)
  | .fault r => .fault r
  | .refused r => .refused r

/-- One call of the host interface, an indivisible exchange (R92, R94). -/
def perform (m : OpMap) (op : HostOp) (s : State) : Host.Outcome (State × HostReply) Fault Refusal :=
  match op with
  | .load image origin => onNext (load image origin s) fun r => (r.1, .load r.2)
  | .step => onNext (stepWith m s) fun t => (t, .step t.status.reply)
  | .run n => onNext (run m n s) fun r => (r.1, .run r.2)
  | .inspect target => onNext (inspect s target) fun v => (s, .inspect v)

end Sys2Proof.Machine
end

