-- ==== Sys2Proof/Machine/Reference.lean ====
section
/-! DEFINITION. The spec's own step, transcribed line by line from the pseudocode of 40_execution_cycle.md R58 over the record of
R10 with `MEM` as an array of 256 words. It shares no operation with the machine but the field split of R35 and the reply of
R59, so that a statement can hold the machine against it. -/

namespace Sys2Proof.Machine

/-- The architectural record of R10, `MEM` as an array indexed 0x00 to 0xFF. -/
structure Arch where
  acc : Word
  pc : Word
  z : Bool
  mem : Byte → Word
  status : Status

/-- The architectural record that a state of the machine stands for. -/
def State.arch (s : State) : Arch where
  acc := s.acc
  pc := s.pc
  z := s.z
  mem := fun a => s.mem.readWord a.toNat
  status := s.status

/-- `STATUS <- Faulted(r); return Fault(r)` (R54, R58). -/
def Arch.fault (a : Arch) (r : Fault) : Arch × StepReply := ({ a with status := .faulted r }, .fault r)

/-- The commit lines of R58 for an instruction that does not halt: the four new values, and Continue. -/
def Arch.commit (acc : Word) (z : Bool) (mem : Byte → Word) (nextPc : Word) : Arch × StepReply :=
  ({ acc := acc, pc := nextPc, z := z, mem := mem, status := .running }, .continues)

/-- The `case form of` of R58, with the commit that follows it. -/
def Arch.execute (a : Arch) (form : Form) (x : Byte) : Arch × StepReply :=
  let next := a.pc + 1
  match form with
  | .loadImm => Arch.commit (x.setWidth 16) a.z a.mem next
  | .loadDir => Arch.commit (a.mem x) a.z a.mem next
  | .loadInd =>
    let p := a.mem x
    if 0x100 ≤ p.toNat then a.fault .outOfBounds else Arch.commit (a.mem (p.setWidth 8)) a.z a.mem next
  | .storDir => Arch.commit a.acc a.z (Function.update a.mem x a.acc) next
  | .storInd =>
    let p := a.mem x
    if 0x100 ≤ p.toNat then a.fault .outOfBounds
    else Arch.commit a.acc a.z (Function.update a.mem (p.setWidth 8) a.acc) next
  | .addImm => Arch.commit (a.acc + x.setWidth 16) a.z a.mem next
  | .addDir => Arch.commit (a.acc + a.mem x) a.z a.mem next
  | .cmpImm => Arch.commit a.acc (decide (a.acc = x.setWidth 16)) a.mem next
  | .cmpDir => Arch.commit a.acc (decide (a.acc = a.mem x)) a.mem next
  | .breq => Arch.commit a.acc a.z a.mem (if a.z then x.setWidth 16 else next)
  | .jump => Arch.commit a.acc a.z a.mem (x.setWidth 16)
  | .halt => ({ a with status := .halted }, .halted)

/-- `step()` of R58. -/
def Arch.step (m : OpMap) (a : Arch) : Arch × StepReply :=
  match a.status with
  | .halted => (a, .halted)
  | .faulted r => (a, .fault r)
  | .ready | .running =>
    if 0x100 ≤ a.pc.toNat then a.fault .outOfBounds
    else
      let w := a.mem (a.pc.setWidth 8)
      match m (opcodeOf w) (modeOf w) with
      | none => a.fault .invalidOpcode
      | some form => a.execute form (operandOf w)

end Sys2Proof.Machine
end

