-- ==== Sys2Proof/Safety.lean ====
section
/-! DEFINITION. The terms that statements about runs use: what holds of every state the machine can be in, which states the
host can bring the machine to, and what a completed run is (spec 70_reset_and_hazards.md R98). -/

namespace Sys2Proof.Machine

/-- The word in the cell that `PC` names. -/
def State.wordAtPc (s : State) : Word := s.mem.readWord s.pc.toNat

/-- The pointer value of an indirect form whose operand byte is `x` (R38). -/
def State.pointerAt (s : State) (x : Byte) : Word := s.mem.readWord x.toNat

/-- What the machine keeps true under an opcode map: memory in its one form; `PC` at most 0x0100 (R12); and a status that the
state explains: Ready only at the entry point (R91), `PC` = 0x0100 only between the advance and its fault (R50), Halted only
on a HALT (R75), each fault on the word that raised it (R54, R57, R78). -/
structure State.Inv (m : OpMap) (s : State) : Prop where
  memWf : s.mem.wf
  pcBound : s.pc.toNat ≤ Config.memWords
  readyAtEntry : s.status = .ready → s.pc = Config.resetPc
  pastEnd : s.pc.toNat = Config.memWords → s.status = .running ∨ s.status = .faulted .outOfBounds
  haltedOnHalt : s.status = .halted → decodeWith m s.wordAtPc = .ok .halt
  faultedOnInvalid : s.status = .faulted .invalidOpcode → ∃ e, decodeWith m s.wordAtPc = .error e
  faultedOnBounds : s.status = .faulted .outOfBounds → s.pc.toNat = Config.memWords ∨
    ∃ x, (decodeWith m s.wordAtPc = .ok (.loadInd x) ∨ decodeWith m s.wordAtPc = .ok (.storInd x)) ∧
      inMemory (s.pointerAt x) = false

/-- The states that construction and calls of the host interface lead to. -/
inductive Reachable (m : OpMap) : State → Prop where
  | construct (acc0 : Word) (z0 : Bool) (mem0 : Byte → Word) : Reachable m (construct acc0 z0 mem0)
  | perform {s t : State} {op : HostOp} {reply : HostReply} :
      Reachable m s → perform m op s = .next (t, reply) → Reachable m t

/-- A completed run ended Halted (R98): the safe end of a run. -/
def State.completed (s : State) : Bool := s.status == .halted

/-- A failed run ended Faulted (R98). -/
def State.failed (s : State) : Bool := s.status.terminal && !s.completed

end Sys2Proof.Machine
end

