-- ==== Sys2Proof/Certificates/Slice0/Obligations.lean ====
section
/-! DEFINITION. The statements for the provers. A statement about `exec` speaks of the states in which a step runs it, Ready and
Running (spec 40_execution_cycle.md R49): the hypothesis `s.status.terminal = false`. A statement about an opcode map speaks
of every map, or of the reference map where it says so (R40; D1).

Three of the spec's own choices and inferences run through many of them. That an instruction is executed from Ready as from
Running, and may halt or fault there, is D19 (log entry 19, DESIGN CHOICE). That `PC + 1` after 0x00FF is 0x0100 and does not
wrap is D16 (log entry 11, DESIGN CHOICE). That no instruction but CMP writes `Z` is R13's inference (log entry 21, DEDUCED).
A statement that rests on one of them has basis 'derived'; each log entry lists those that do. -/

open Sys2Proof Sys2Proof.Machine

/-! ### What each instruction does -/

/-- Under every lawful map high byte 0x10 is LOAD immediate; it zero-extends its byte into `ACC`, advances `PC`, and leaves `Z`
and memory alone, raising nothing. The zero extension is the spec's own inference: R38, "LOAD #imm is zero-extended
[derived: from the example program ...]", to which R60 points (log entry 9, DEDUCED, unsafe). -/
def Obligations.LoadImmediateZeroExtendsIntoAcc : Prop :=
  (∀ m : OpMap, m.lawful = true → ∀ x, decodeWith m (wordOf 0x1 0x0 x) = .ok (.loadImm x)) ∧
  ∀ x s, s.status.terminal = false →
    exec (.loadImm x) s = .next { s with acc := x.setWidth 16, pc := s.pc + 1, status := .running }

/-- LOAD direct copies the whole cell into `ACC` and never faults. Its high byte 0x11 is the reference map's (D1, log entry 1). -/
def Obligations.LoadDirectCopiesCellIntoAcc : Prop :=
  (∀ x, decode (wordOf 0x1 0x1 x) = .ok (.loadDir x)) ∧
  ∀ x s, s.status.terminal = false →
    exec (.loadDir x) s =
      .next { s with acc := s.mem.readWord x.toNat, pc := s.pc + 1, status := .running }

/-- LOAD indirect copies the cell that the pointer cell names, where the whole 16-bit pointer lies in memory. Its high byte
0x15 is the reference map's (D1, log entry 1). -/
def Obligations.LoadIndirectCopiesPointedCellIntoAcc : Prop :=
  (∀ x, decode (wordOf 0x1 0x5 x) = .ok (.loadInd x)) ∧
  ∀ x s, s.status.terminal = false → (s.mem.readWord x.toNat).toNat < 0x100 →
    exec (.loadInd x) s =
      .next { s with acc := s.mem.readWord (s.mem.readWord x.toNat).toNat, pc := s.pc + 1, status := .running }

/-- STOR direct replaces the cell its operand names with `ACC` and changes no other byte of memory and no other register but
`PC` and `STATUS`. Its high byte 0x12 is the spec's inference from the source's words (R41 item 2, log entry 1). -/
def Obligations.StorDirectReplacesCell : Prop :=
  (∀ m : OpMap, m.lawful = true → ∀ x, decodeWith m (wordOf 0x1 0x2 x) = .ok (.storDir x)) ∧
  ∀ x s, s.status.terminal = false → s.mem.wf →
    ∃ t, exec (.storDir x) s = .next t ∧
      t = { s with mem := t.mem, pc := s.pc + 1, status := .running } ∧
      t.mem.readWord (directAddr x).toNat = s.acc ∧
      ∀ b, b ≠ 2 * (directAddr x).toNat → b ≠ 2 * (directAddr x).toNat + 1 → t.mem.readByte b = s.mem.readByte b

/-- STOR indirect replaces the cell that the pointer cell names, where the whole 16-bit pointer lies in memory; the pointer
cell and every other byte of memory keep their values, unless the pointer points at itself. Its high byte 0x16 is the
reference map's (D1, log entry 1). -/
def Obligations.StorIndirectReplacesPointedCell : Prop :=
  (∀ x, decode (wordOf 0x1 0x6 x) = .ok (.storInd x)) ∧
  ∀ x s ea, s.status.terminal = false → s.mem.wf → s.indirectAddr x = .ok ea → ea.toNat < 0x100 →
    ∃ t, exec (.storInd x) s = .next t ∧
      t = { s with mem := t.mem, pc := s.pc + 1, status := .running } ∧
      t.mem.readWord ea.toNat = s.acc ∧
      (∀ b, b ≠ 2 * ea.toNat → b ≠ 2 * ea.toNat + 1 → t.mem.readByte b = s.mem.readByte b) ∧
      (ea ≠ x.setWidth 16 → t.mem.readWord x.toNat = ea)

/-- Where the pointer is 0x0100 or more, LOAD indirect and STOR indirect take the OutOfBounds fault and do nothing else. -/
def Obligations.IndirectPointerOutsideMemoryFaults : Prop :=
  ∀ x s, s.status.terminal = false → 0x100 ≤ (s.mem.readWord x.toNat).toNat →
    exec (.loadInd x) s = .next { s with status := .faulted .outOfBounds } ∧
    exec (.storInd x) s = .next { s with status := .faulted .outOfBounds }

/-- Both forms of ADD add modulo 2^16, silently: no flag, no fault, no carry kept, and nothing else changes. The silent wrap is
the source's own assumption, which R65 keeps (U3; log entry 8, DESIGN CHOICE, unsafe); the zero extension of the immediate
is the spec's choice D4 (log entry 9, DESIGN CHOICE, unsafe); that ADD keeps `Z` is R13's inference (log entry 21, DEDUCED,
unsafe). -/
def Obligations.AddIsSilentModularAddition : Prop :=
  (∀ x s, s.status.terminal = false →
    exec (.addImm x) s =
      .next { s with acc := BitVec.ofNat 16 ((s.acc.toNat + x.toNat) % 2 ^ 16), pc := s.pc + 1, status := .running }) ∧
  (∀ x s, s.status.terminal = false →
    exec (.addDir x) s =
      .next { s with
        acc := BitVec.ofNat 16 ((s.acc.toNat + (s.mem.readWord x.toNat).toNat) % 2 ^ 16)
        pc := s.pc + 1
        status := .running }) ∧
  (∀ a : Word, addWords a 0 = a ∧ addWords 0 a = a) ∧ ∀ a b : Word, addWords a b = addWords b a

/-- Both forms of CMP set `Z` to the equality of all 16 bits and change nothing but `Z`, `PC` and `STATUS` (R68 to R70). The zero
extension of the immediate is the spec's choice D4 (log entry 9, DESIGN CHOICE, unsafe). -/
def Obligations.CompareWritesOnlyTheEqualFlag : Prop :=
  (∀ x s, s.status.terminal = false →
    exec (.cmpImm x) s = .next { s with z := decide (s.acc = x.setWidth 16), pc := s.pc + 1, status := .running }) ∧
  ∀ x s, s.status.terminal = false →
    exec (.cmpDir x) s =
      .next { s with z := decide (s.acc = s.mem.readWord x.toNat), pc := s.pc + 1, status := .running }

/-- The high bytes of ADD and CMP in the reference map (D1, log entry 1). -/
def Obligations.AluWordsDecodeUnderReferenceMap : Prop :=
  ∀ x, decode (wordOf 0x2 0x0 x) = .ok (.addImm x) ∧ decode (wordOf 0x2 0x1 x) = .ok (.addDir x) ∧
    decode (wordOf 0x3 0x0 x) = .ok (.cmpImm x) ∧ decode (wordOf 0x3 0x1 x) = .ok (.cmpDir x)

/-- BREQ goes to its target when `Z` is true and to the next word when it is false, and changes nothing but `PC` and
`STATUS`. Its high byte 0x41 is the reference map's (D1, log entry 1). -/
def Obligations.BranchIfEqualFollowsFlag : Prop :=
  (∀ x, decode (wordOf 0x4 0x1 x) = .ok (.breq x)) ∧
  ∀ x s, s.status.terminal = false →
    exec (.breq x) s = .next { s with pc := if s.z = true then x.setWidth 16 else s.pc + 1, status := .running }

/-- JUMP goes to its target and changes nothing but `PC` and `STATUS`. Its high byte 0x51 is the reference map's (D1, log
entry 1). -/
def Obligations.JumpGoesToTarget : Prop :=
  (∀ x, decode (wordOf 0x5 0x1 x) = .ok (.jump x)) ∧
  ∀ x s, s.status.terminal = false → exec (.jump x) s = .next { s with pc := x.setWidth 16, status := .running }

/-- HALT changes nothing but `STATUS`. Its high byte 0xF0 and its ignored operand byte are the spec's choices (D1, D2, D3, log
entries 1 and 10). -/
def Obligations.HaltChangesOnlyStatus : Prop :=
  (∀ x, decode (wordOf 0xF 0x0 x) = .ok .halt) ∧
  ∀ s, s.status.terminal = false → exec .halt s = .next { s with status := .halted }

/-- R72, whole: a JUMP, and a BREQ with `Z` true, never faults and goes to the absolute address of its operand byte, inside
memory, with no delay slot: the next step fetches that word, and faults with InvalidOpcode if it is invalid. -/
def Obligations.ControlTransferLandsOnAbsoluteTarget : Prop :=
  ∀ (m : OpMap) i x s, s.status.terminal = false → i = .jump x ∨ (i = .breq x ∧ s.z = true) →
    ∃ t, exec i s = .next t ∧ t = { s with pc := x.setWidth 16, status := .running } ∧
      t.pc.toNat = x.toNat ∧ t.fetch = .ok (s.mem.readWord x.toNat) ∧
      ∀ e, decodeWith m (s.mem.readWord x.toNat) = .error e →
        stepWith m t = .next { t with status := .faulted .invalidOpcode }

/-- The `PC` after a commit, form by form (R55). That `PC` is 0x0100 after a form that advances it from 0x00FF, with no wrap to
0x0000, is the spec's choice D16 (log entry 11, DESIGN CHOICE, unsafe). -/
def Obligations.PcAfterCommitOfEveryForm : Prop :=
  ∀ i s t, s.status.terminal = false → exec i s = .next t → t.status = .running ∨ t.status = .halted →
    t.pc = match i with
      | .jump x => x.setWidth 16
      | .breq x => if s.z = true then x.setWidth 16 else BitVec.ofNat 16 ((s.pc.toNat + 1) % 2 ^ 16)
      | .halt => s.pc
      | _ => BitVec.ofNat 16 ((s.pc.toNat + 1) % 2 ^ 16)

/-- The write columns of the access matrix: `ACC` is written by LOAD and ADD only, `Z` by CMP only, memory by STOR only,
whatever else happens, a fault among it. That CMP is the only writer of `Z`, ADD no other, is the spec's own inference: R13,
"[derived: from §3 ...], which name CMP as the only writer" (log entry 21, DEDUCED, unsafe). -/
def Obligations.AccessMatrixWrites : Prop :=
  ∀ i s t, exec i s = .next t →
    (i.form ∉ [.loadImm, .loadDir, .loadInd, .addImm, .addDir] → t.acc = s.acc) ∧
    (i.form ∉ [.cmpImm, .cmpDir] → t.z = s.z) ∧
    (i.form ∉ [.storDir, .storInd] → t.mem = s.mem)

/-- The read column of `ACC`: BREQ, JUMP and HALT carry any `ACC` through unread, and a LOAD that commits does not depend on
the `ACC` it replaces. -/
def Obligations.AccUnreadByControlAndLoad : Prop :=
  ∀ i s t v, exec i s = .next t →
    (i.form ∈ [.breq, .jump, .halt] → exec i { s with acc := v } = .next { t with acc := v }) ∧
    (i.form ∈ [.loadImm, .loadDir, .loadInd] → t.status = .running → exec i { s with acc := v } = .next t)

/-- The read column of `Z`: every instruction but BREQ does the same whatever `Z` is, keeping that `Z` unless it is CMP. That
the others keep it rests on the spec's own inference in R13 (log entry 21, DEDUCED, unsafe). -/
def Obligations.FlagReadOnlyByBranch : Prop :=
  ∀ i s t b, exec i s = .next t → i.form ≠ .breq →
    exec i { s with z := b } = .next { t with z := if i.form ∈ [.cmpImm, .cmpDir] then t.z else b }

/-! ### Encoding -/

/-- R37, whole: every word splits into exactly one triple of fields. -/
def Obligations.WordSplitsIntoExactlyOneTriple : Prop :=
  ∀ (w : Word) (o md : Nibble) (x : Byte),
    (w = wordOf o md x ↔ o = opcodeOf w ∧ md = modeOf w ∧ x = operandOf w) ∧
    (wordOf o md x).toNat = o.toNat * 4096 + md.toNat * 256 + x.toNat

/-- The decoder answers the form that the map gives the word's high byte, with its operand byte, and else Invalid; a step of a
live machine that fetches an invalid word takes the InvalidOpcode fault; any other word is an instruction of one of the
twelve forms (R44, R51). That a first step, from Ready, takes that fault is the spec's choice D19 (log entry 19, DESIGN
CHOICE). -/
def Obligations.DecodeFollowsMapAndInvalidWordFaults : Prop :=
  ∀ (m : OpMap) (w : Word),
    (∀ f, m (w.extractLsb' 12 4) (w.extractLsb' 8 4) = some f →
      decodeWith m w = .ok (f.instr (w.extractLsb' 0 8)) ∧ f ∈ Form.all) ∧
    (m (w.extractLsb' 12 4) (w.extractLsb' 8 4) = none →
      (∃ e, decodeWith m w = .error e) ∧
      ∀ s, s.status.terminal = false → s.fetch = .ok w →
        stepWith m s = .next { s with status := .faulted .invalidOpcode })

/-- The operand byte never takes part in decoding: two words with one high byte are both invalid or both of one form. Under
the reference map every word 0xF0xx is HALT (D3, log entry 10). -/
def Obligations.OperandByteNeverDecidesTheForm : Prop :=
  (∀ (m : OpMap) (o md : Nibble) (x y : Byte) (i : Instr), decodeWith m (wordOf o md x) = .ok i →
    ∃ j, decodeWith m (wordOf o md y) = .ok j ∧ j.form = i.form) ∧
  ∀ w : Word, 0xF000 ≤ w.toNat → w.toNat ≤ 0xF0FF → decode w = .ok .halt

/-- The reference map is one a model may take, no two of its rows share a high byte, and 244 of the 256 high bytes name no
form (R42's count; the map is the spec's choice, D1, log entry 1). -/
def Obligations.ReferenceMapIsLawfulAndUnambiguous : Prop :=
  refOpmap.lawful = true ∧
  opTable.Pairwise (fun r q => (r.opcode, r.mode) ≠ (q.opcode, q.mode)) ∧
  (OpMap.pairs.filter fun p => refOpmap p.1 p.2 == none).length = 244

/-- Words written out in the spec decode to the instructions it gives them under the reference map (D1, log entry 1). That 0xF0AB
is HALT, its operand byte ignored, and that 0x0000 is invalid are the spec's choices D3 and D2 (log entry 10, DESIGN CHOICE,
unsafe). -/
def Obligations.WrittenWordsDecode : Prop :=
  decode 0x1080 = .ok (.loadImm 0x80) ∧ decode 0x129F = .ok (.storDir 0x9F) ∧
  decode 0x1001 = .ok (.loadImm 0x01) ∧ decode 0x1290 = .ok (.storDir 0x90) ∧
  decode 0x159F = .ok (.loadInd 0x9F) ∧ decode 0x2191 = .ok (.addDir 0x91) ∧
  decode 0x3090 = .ok (.cmpImm 0x90) ∧ decode 0x4113 = .ok (.breq 0x13) ∧
  decode 0x5105 = .ok (.jump 0x05) ∧ decode 0xF0AB = .ok .halt ∧
  decode 0x0000 = .error (.invalidOpcode 0x0 0x0) ∧ decode 0x1700 = .error (.invalidOpcode 0x1 0x7)

/-- Decode and encode agree under EVERY opcode map: an instruction the map can encode has a word, and that word decodes to it;
a lawful map (R41) can encode every instruction. -/
def Obligations.DecodeInvertsEncodeUnderEveryMap : Prop :=
  ∀ (m : OpMap) (i : Instr),
    (i.wellFormed m = true → ∃ w, encodeWith m i = some w ∧ decodeWith m w = .ok i) ∧
    (m.lawful = true → i.wellFormed m = true)

/-- Decode and encode agree both ways under the reference map: the table's word of an instruction decodes to it and is the
lowest word the map gives it, and a word that decodes is the word of what it decodes to, but for HALT's ignored byte (D1,
D3, log entries 1 and 10). -/
def Obligations.ReferenceEncodingIsExact : Prop :=
  (∀ i, decode (encode i) = .ok i ∧ encodeWith refOpmap i = some (encode i)) ∧
  ∀ w i, decode w = .ok i → encode i = w ∨ (i = .halt ∧ encode i = w &&& 0xFF00)

/-! ### Memory -/

/-- R22, whole: inside memory a read gives the whole cell and a write replaces it and no other; outside, both raise
OutOfBounds. -/
def Obligations.AccessPrimitives : Prop :=
  ∀ (s : State) (a v : Word), s.mem.wf →
    (a.toNat < 0x100 →
      s.memRead a = .ok (s.mem.readWord a.toNat) ∧ memWrite a v = .ok (a, v) ∧
      ∀ b, ({ s with mem := s.memAfter (some (a, v)) } : State).memRead b = if b = a then .ok v else s.memRead b) ∧
    (0x100 ≤ a.toNat → s.memRead a = .error .outOfBounds ∧ memWrite a v = .error .outOfBounds)

/-- After any sequence of writes a cell holds the last value written to it, or what it held before the first if none was. -/
def Obligations.CellHoldsLastWrite : Prop :=
  ∀ (m : Memory) (writes : List (Byte × Word)) (a : Byte), m.wf →
    (writes.foldl (fun (n : Memory) (p : Byte × Word) => n.writeWord p.1.toNat p.2) m).readWord a.toNat =
      ((writes.reverse.find? fun p => p.1 == a).map (·.2)).getD (m.readWord a.toNat)

/-- The model's own form of memory: two memories in it with the same 256 words are the same data (log entry 5). -/
def Obligations.CanonicalMemoryIsItsWords : Prop :=
  ∀ m n : Memory, m.wf → n.wf → (∀ a, a < 0x100 → m.readWord a = n.readWord a) → m = n

/-- Fetch reads what STOR wrote: a STOR into the very next cell, direct or through a pointer, is executed by the very next
step. That the first of the two may start in Ready is the spec's choice D19 (log entry 19). -/
def Obligations.StoredWordIsFetchedByNextStep : Prop :=
  ∀ (m : OpMap) (s : State) (w ea : Word) (x : Byte) (i : Instr),
    s.status.terminal = false → s.mem.wf → s.fetch = .ok w →
    (decodeWith m w = .ok (.storDir x) ∧ ea = directAddr x) ∨
      (decodeWith m w = .ok (.storInd x) ∧ s.indirectAddr x = .ok ea) →
    ea.toNat = s.pc.toNat + 1 → ea.toNat < 0x100 → decodeWith m s.acc = .ok i →
    ∃ t, stepWith m s = .next t ∧ t.fetch = .ok s.acc ∧ stepWith m t = exec i t

/-! ### The step -/

/-- A step of a live machine runs the instruction that its decoder reads at `PC`, and adds nothing around it. That it does so from
Ready too is the spec's choice D19 (R49; log entry 19, DESIGN CHOICE). -/
def Obligations.StepRunsTheDecodedInstruction : Prop :=
  ∀ (s : State) (w : Word) (i : Instr), s.status.terminal = false → s.fetch = .ok w → decode w = .ok i →
    i.wellFormed refOpmap = true → step s = exec i s

/-- The machine's step, on the bytes that hold its memory, is the spec's pseudocode (R58) on the array of 256 words: same next
state, same result, under every opcode map and from every state with memory in its canonical form. The pseudocode, and so
this statement, rests on ADD's silent wrap (U3; log entry 8), the zero extension of immediates (R38's inference and D4; log
entry 9), a `PC` that goes from 0x00FF to 0x0100 (D16; log entry 11), a first step that executes (D19; log entry 19) and CMP
as the only writer of `Z` (R13's inference; log entry 21). -/
def Obligations.StepRefinesThePseudocode : Prop :=
  ∀ (m : OpMap) (s : State), s.mem.wf →
    ∃ t, stepWith m s = .next t ∧ t.mem.wf ∧ (t.arch, t.status.reply) = Arch.step m s.arch

/-- In a terminal state a step changes nothing and returns the terminal status; in Ready or Running it executes the instruction
that it fetches and decodes (R49). That it executes in Ready is the spec's choice D19 (log entry 19, DESIGN CHOICE). A fetch
or a decode that fails is FaultingStepChangesOnlyStatus, FetchFaultsExactlyPastMemory and
DecodeFollowsMapAndInvalidWordFaults. -/
def Obligations.TerminalStepIsANoop : Prop :=
  (∀ (m : OpMap) s, s.status = .halted → stepWith m s = .next s ∧ s.status.reply = .halted) ∧
  (∀ (m : OpMap) s r, s.status = .faulted r → stepWith m s = .next s ∧ s.status.reply = .fault r) ∧
  ∀ (m : OpMap) s w i, s.status = .ready ∨ s.status = .running → s.fetch = .ok w → decodeWith m w = .ok i →
    stepWith m s = exec i s

/-- The fetch reads the word at `PC`, faults exactly from 0x0100 on, and `PC` gets there when a non-branching instruction at
0x00FF completes (R50). That `PC` then holds 0x0100 and does not wrap is the spec's choice D16 (log entry 11, DESIGN CHOICE,
unsafe), that a first step, from Ready, may fault the choice D19 (log entry 19). -/
def Obligations.FetchFaultsExactlyPastMemory : Prop :=
  ∀ s : State, s.status.terminal = false →
    (s.pc.toNat < 0x100 → s.fetch = .ok (s.mem.readWord s.pc.toNat)) ∧
    (0x100 ≤ s.pc.toNat → s.fetch = .error .outOfBounds ∧
      ∀ m : OpMap, stepWith m s = .next { s with status := .faulted .outOfBounds }) ∧
    (s.pc = 0x00FF → ∀ i t, i.form ∉ [.breq, .jump, .halt] → exec i s = .next t → t.status = .running → t.pc = 0x0100)

/-- Whichever phase raises a fault, `ACC`, `Z`, `PC` and all of memory keep their values, `STATUS` becomes Faulted with the
reason raised, and the step returns it (R54). That a first step, from Ready, may fault is the spec's choice D19 (log entry
19, DESIGN CHOICE). -/
def Obligations.FaultingStepChangesOnlyStatus : Prop :=
  ∀ (m : OpMap) (s : State), s.status.terminal = false →
    (∀ r, s.fetch = .error r → stepWith m s = .next { s with status := .faulted r }) ∧
    (∀ w e, s.fetch = .ok w → decodeWith m w = .error e →
      stepWith m s = .next { s with status := .faulted .invalidOpcode }) ∧
    (∀ w x r, s.fetch = .ok w → decodeWith m w = .ok (.loadInd x) → s.indirectValue x = .error r →
      stepWith m s = .next { s with status := .faulted r }) ∧
    (∀ w x ea r, s.fetch = .ok w → decodeWith m w = .ok (.storInd x) → s.indirectAddr x = .ok ea →
      memWrite ea s.acc = .error r → stepWith m s = .next { s with status := .faulted r }) ∧
    ∀ t r, stepWith m s = .next t → t.status = .faulted r →
      t = { s with status := .faulted r } ∧ t.status.reply = .fault r

/-- The status a step of a live machine ends in, by its cause: Halted exactly for HALT, InvalidOpcode exactly for an invalid
word, OutOfBounds exactly for a fetch past memory or an indirect form with its pointer past memory, and else Running;
never Ready. For a step from Ready this is the spec's choice D19 (log entry 19, DESIGN CHOICE). -/
def Obligations.StatusAfterStepByCause : Prop :=
  ∀ (m : OpMap) (s t : State), s.status.terminal = false → stepWith m s = .next t →
    (t.status = .halted ↔ ∃ w, s.fetch = .ok w ∧ decodeWith m w = .ok .halt) ∧
    (t.status = .faulted .invalidOpcode ↔ ∃ w e, s.fetch = .ok w ∧ decodeWith m w = .error e) ∧
    (t.status = .faulted .outOfBounds ↔ 0x100 ≤ s.pc.toNat ∨
      ∃ w x, s.fetch = .ok w ∧ (decodeWith m w = .ok (.loadInd x) ∨ decodeWith m w = .ok (.storInd x)) ∧
        0x100 ≤ (s.mem.readWord x.toNat).toNat) ∧
    t.status ≠ .ready

/-- The machine is never stuck: every step, and every run of any length, answers a next state under every opcode map. -/
def Obligations.EveryStepAndRunAnswersANextState : Prop :=
  ∀ (m : OpMap) (s : State), (∃ t, stepWith m s = .next t) ∧ ∀ n, ∃ r, run m n s = .next r

/-- The comparison and the branch together: `CMP $e` then `BREQ $t` ends at the target exactly when `ACC` equals the
cell. That it may start in Ready is the spec's choice D19 (log entry 19), and the `PC + 2` of 0x0100 the choice D16 (log
entry 11). -/
def Obligations.CompareThenBranchGoesIffEqual : Prop :=
  ∀ (m : OpMap) (s : State) (v w : Word) (e x : Byte), s.status.terminal = false → s.pc.toNat + 1 < 0x100 →
    s.fetch = .ok v → decodeWith m v = .ok (.cmpDir e) →
    s.memRead (s.pc + 1) = .ok w → decodeWith m w = .ok (.breq x) →
    ∃ t, stepWith m s = .next t ∧
      stepWith m t = .next { s with
        z := decide (s.acc = s.mem.readWord e.toNat)
        pc := if s.acc = s.mem.readWord e.toNat then x.setWidth 16 else s.pc + 2
        status := .running }

/-! ### Invariants -/

/-- The machine's invariant holds after every step that starts in it, at the reference map. Its bound on `PC`, 0x0100,
is the spec's choice D16 (log entry 11, DESIGN CHOICE). -/
def Obligations.StepKeepsTheMachineInvariant : Prop :=
  ∀ s t : State, s.Inv refOpmap → step s = .next t → t.Inv refOpmap

/-- Every operation of the host interface keeps the machine's invariant, under every opcode map (its bound on `PC`: D16,
log entry 11; `load` only while Ready, and a failed one without effect: D10 and D11, log entry 13). -/
def Obligations.HostOperationKeepsTheMachineInvariant : Prop :=
  ∀ (m : OpMap) (op : HostOp) (s t : State) (reply : HostReply),
    s.Inv m → perform m op s = .next (t, reply) → t.Inv m

/-- The invariant holds at the model's reset state and after construction with any launch parameters. The values of
that reset state are the model's (log entries 2, 3 and 4); the invariant holds at every other choice of them too. -/
def Obligations.ResetHasTheMachineInvariant : Prop :=
  ∀ m : OpMap, State.reset.Inv m ∧ ∀ acc0 z0 mem0, (construct acc0 z0 mem0).Inv m

/-- What the host can observe of any state it can bring the machine to, under every opcode map: `PC` never passes 0x0100
(D16, log entry 11), Ready is at the entry point, Halted shows a HALT at `PC`, an InvalidOpcode fault shows an invalid word
there, and an OutOfBounds fault shows `PC` = 0x0100, where no word can be fetched, or an indirect form at `PC` whose pointer
is 0x0100 or more (R57, R78; D8, log entry 24). That a failed `load` changes nothing, STATUS included, and that `load` has a
meaning only while Ready are the spec's choices D11 and D10 (R93; log entry 13, DESIGN CHOICE, unsafe after a failed
load). -/
def Obligations.ReachableStateExplainsItsStatus : Prop :=
  ∀ (m : OpMap) (s : State), Reachable m s →
    s.pc.toNat ≤ 0x100 ∧
    (s.status = .ready → s.pc = 0x0000) ∧
    (s.status = .halted → ∃ w, s.fetch = .ok w ∧ decodeWith m w = .ok .halt) ∧
    (s.status = .faulted .invalidOpcode → ∃ w e, s.fetch = .ok w ∧ decodeWith m w = .error e) ∧
    (s.status = .faulted .outOfBounds →
      (s.pc = 0x0100 ∧ s.fetch = .error .outOfBounds) ∨
      ∃ w x, s.fetch = .ok w ∧ (decodeWith m w = .ok (.loadInd x) ∨ decodeWith m w = .ok (.storInd x)) ∧
        0x100 ≤ (s.mem.readWord x.toNat).toNat)

/-! ### Reset and the host interface -/

/-- R18, whole: the state after construction, for every value of the launch parameters, and the cells that a successful
`load` into it then sets. -/
def Obligations.ConstructedStateHasResetValues : Prop :=
  ∀ (acc0 : Word) (z0 : Bool) (mem0 : Byte → Word),
    (construct acc0 z0 mem0).pc = 0x0000 ∧ (construct acc0 z0 mem0).status = .ready ∧
    (construct acc0 z0 mem0).acc = acc0 ∧ (construct acc0 z0 mem0).z = z0 ∧
    (∀ a : Byte, (construct acc0 z0 mem0).mem.readWord a.toNat = mem0 a) ∧
    ∀ image origin t, load image origin (construct acc0 z0 mem0) = .next (t, .ok) →
      ∀ k (h : k < image.length), t.mem.readWord (origin.toNat + k) = image[k]

/-- The model's reset state is construction at the values the model names for the open parameters: zero, false and zero in
every cell (DESIGN CHOICE, log entries 2, 3 and 4). -/
def Obligations.ResetIsConstructionAtNamedValues : Prop :=
  State.reset = construct 0x0000 false (fun _ => 0x0000)

/-- `load` copies all of an image that fits, or nothing; only memory can change; outside Ready it is refused (D10, D11, log
entry 13). -/
def Obligations.LoadCopiesAllOrNothing : Prop :=
  ∀ (image : List Word) (origin : Word) (s : State), s.mem.wf →
    (s.status = .ready → origin.toNat < 0x100 → origin.toNat + image.length ≤ 0x100 →
      ∃ t, load image origin s = .next (t, .ok) ∧ t = { s with mem := t.mem } ∧
        (∀ k (h : k < image.length), t.mem.readWord (origin.toNat + k) = image[k]) ∧
        ∀ a, a < origin.toNat ∨ origin.toNat + image.length ≤ a → t.mem.readWord a = s.mem.readWord a) ∧
    (s.status = .ready → 0x100 ≤ origin.toNat ∨ 0x100 < origin.toNat + image.length →
      load image origin s = .next (s, .outOfBounds)) ∧
    (s.status ≠ .ready → load image origin s = .refused .loadAfterFirstStep)

/-- A step never leads back to Ready, nothing the host calls does, `load` is refused outside Ready, and inspection changes
nothing: once a step has been taken, only the CORE changes memory (R34). That `load` is refused whenever `STATUS` is not
Ready is the spec's choice D10 (R93; log entry 13, DESIGN CHOICE). -/
def Obligations.HostNeverWritesMemoryAfterTheFirstStep : Prop :=
  (∀ (m : OpMap) s t, stepWith m s = .next t → t.status ≠ .ready) ∧
  (∀ (m : OpMap) op s t reply, s.status ≠ .ready → perform m op s = .next (t, reply) → t.status ≠ .ready) ∧
  (∀ (m : OpMap) image origin s, s.status ≠ .ready → perform m (.load image origin) s = .refused .loadAfterFirstStep) ∧
  ∀ (m : OpMap) target s t reply, perform m (.inspect target) s = .next (t, reply) → t = s

/-- Inspection reads the cell or register it names, in every state, and is refused outside memory (D17, log entry 14). -/
def Obligations.InspectionReadsWithoutEffect : Prop :=
  ∀ s : State, (∀ a : Word, a.toNat < 0x100 → inspect s (.cell a) = .next (.word (s.mem.readWord a.toNat))) ∧
    (∀ a : Word, 0x100 ≤ a.toNat → inspect s (.cell a) = .refused .inspectOutsideMemory) ∧
    inspect s .acc = .next (.word s.acc) ∧ inspect s .pc = .next (.word s.pc) ∧
    inspect s .z = .next (.flag s.z) ∧ inspect s .status = .next (.status s.status)

/-- `run(n)` takes at most `n` steps: all `n` of them if it answers StepLimitExceeded, else it ends in the terminal state it
reports, or, for `run(0)`, where it was (D9, log entry 12). The steps are counted by the host's own run of the machine. -/
def Obligations.RunIsBoundedRepeatedStep : Prop :=
  ∀ (n : Nat) (s t : State) (reply : RunReply), run refOpmap n s = .next (t, reply) →
    ∃ k, k ≤ n ∧ Sys2Proof.core.run k s = .next t ∧
      (reply = .stepLimitExceeded → k = n ∧ 0 < n ∧ t.status = .running) ∧
      (∀ r, reply = .stepped r → r = t.status.reply ∧ (t.status.terminal = true ∨ n = 0))

/-- StepLimitExceeded ends nothing: a longer run is the shorter one continued from the state where it stopped (D9, log entry
12). -/
def Obligations.RunResumesAfterStepLimit : Prop :=
  ∀ (m : OpMap) (n k : Nat) (s t : State), 0 < k → run m n s = .next (t, .stepLimitExceeded) →
    run m (n + k) s = run m k t

/-- A terminal state is for ever: every run from it, of any length, answers its status at once and changes nothing. What
`run(0)` answers there is the spec's choice D9 (R95; log entry 12, DESIGN CHOICE, unsafe for the reply). -/
def Obligations.TerminalStateIsForever : Prop :=
  ∀ (m : OpMap) (n : Nat) (s : State), s.status.terminal = true → run m n s = .next (s, .stepped s.status.reply)

/-- The bits of STATUS for each of its five values (D21, log entry 15). -/
def Obligations.StatusBitsAreTheTable : Prop :=
  (Status.ready).bits = 0b0000#4 ∧ (Status.running).bits = 0b0001#4 ∧ (Status.halted).bits = 0b0010#4 ∧
  (Status.faulted .invalidOpcode).bits = 0b0111#4 ∧ (Status.faulted .outOfBounds).bits = 0b1011#4

/-- The word placed for the host's question is the one the next step runs, from any state (the model's own, log entry 16; from
Ready, D19, log entry 19). -/
def Obligations.PlacedWordIsTheNextInstruction : Prop :=
  ∀ (s : State) (w : Nat) (i : Instr), s.mem.wf → decodeTableWord 16 w = some i →
    step (s.withFetchWord 16 w) = exec i (s.withFetchWord 16 w)
end

