-- ==== Sys2Proof/Laws/Decode.lean ====
section
/-! SUPPORT. What the field split, the decoder and the lookup of a form do, said once. -/

namespace Sys2Proof

theorem getLsbD_wordOf (o m : Nibble) (x : Byte) (i : Nat) :
    (wordOf o m x).getLsbD i =
      if i < 8 then x.getLsbD i else if i - 8 < 4 then m.getLsbD (i - 8) else o.getLsbD (i - 8 - 4) := by
  show BitVec.getLsbD (w := 4 + 4 + 8) (o ++ m ++ x) i = _
  simp only [BitVec.getLsbD_append]

@[simp] theorem opcodeOf_wordOf (o m : Nibble) (x : Byte) : opcodeOf (wordOf o m x) = o := by
  ext i hi
  rw [opcodeOf, BitVec.getElem_extractLsb', getLsbD_wordOf, if_neg (by omega), if_neg (by omega),
    show 12 + i - 8 - 4 = i by omega, BitVec.getLsbD_eq_getElem]

@[simp] theorem modeOf_wordOf (o m : Nibble) (x : Byte) : modeOf (wordOf o m x) = m := by
  ext i hi
  rw [modeOf, BitVec.getElem_extractLsb', getLsbD_wordOf, if_neg (by omega), if_pos (by omega),
    show 8 + i - 8 = i by omega, BitVec.getLsbD_eq_getElem]

@[simp] theorem operandOf_wordOf (o m : Nibble) (x : Byte) : operandOf (wordOf o m x) = x := by
  ext i hi
  rw [operandOf, BitVec.getElem_extractLsb', getLsbD_wordOf, if_pos (by omega), show 0 + i = i by omega,
    BitVec.getLsbD_eq_getElem]

/-- The decoder on a word given as its three fields. -/
theorem decodeWith_wordOf (m : OpMap) (o md : Nibble) (x : Byte) :
    decodeWith m (wordOf o md x) =
      match m o md with
      | some f => .ok (f.instr x)
      | none => .error (.invalidOpcode o md) := by
  cases h : m o md <;> simp [decodeWith, h]

/-- What the decoder can answer: an instruction of the form its high byte names, or a rejection that names the pair. -/
theorem decodeWith_cases (m : OpMap) (w : Word) :
    (∃ f, m (opcodeOf w) (modeOf w) = some f ∧ decodeWith m w = .ok (f.instr (operandOf w))) ∨
      (m (opcodeOf w) (modeOf w) = none ∧ decodeWith m w = .error (.invalidOpcode (opcodeOf w) (modeOf w))) := by
  unfold decodeWith
  split <;> simp_all

@[simp] theorem Form.instr_form (f : Form) (x : Byte) : (f.instr x).form = f := by
  cases f <;> rfl

/-- An instruction is its form with the operand an assembler writes for it. -/
@[simp] theorem Instr.form_instr (i : Instr) : i.form.instr i.operand = i := by
  cases i <;> rfl

theorem Form.mem_all (f : Form) : f ∈ Form.all := by
  cases f <;> decide

theorem Nibble.mem_all (n : Nibble) : n ∈ Nibble.all :=
  List.mem_map.2 ⟨n.toNat, List.mem_range.2 n.isLt, by simp⟩

theorem OpMap.mem_pairs (o md : Nibble) : (o, md) ∈ OpMap.pairs :=
  List.mem_flatMap.2 ⟨o, Nibble.mem_all o, List.mem_map.2 ⟨md, Nibble.mem_all md, rfl⟩⟩

/-- A map names a form exactly where some pair is mapped to it. -/
theorem OpMap.names_iff (m : OpMap) (f : Form) : m.names f = true ↔ ∃ o md, m o md = some f := by
  refine ⟨fun h => ?_, fun ⟨o, md, h⟩ => List.any_eq_true.2 ⟨(o, md), OpMap.mem_pairs o md, by simp [h]⟩⟩
  obtain ⟨p, -, hp⟩ := List.any_eq_true.1 h
  exact ⟨p.1, p.2, by simpa using hp⟩

end Sys2Proof
end

