-- ==== Sys2Proof/Laws/Memory.lean ====
section
/-! SUPPORT. The laws of memory: a read after a write gives the value written, a write leaves every other place alone, and
every memory operation keeps the canonical form `Memory.wf`. -/

namespace Sys2Proof.Machine

/-- Addresses strictly rise: the part of `Memory.wf` that reading after writing needs. -/
abbrev Memory.rising (m : Memory) : Prop := List.Pairwise (fun p q : Host.Cell => p.1 < q.1) m

theorem Memory.wf.tail {c : Host.Cell} {m : Memory} (h : Memory.wf (c :: m)) : Memory.wf m :=
  ⟨(List.pairwise_cons.1 h.1).2, fun d hd => h.2 d (List.mem_cons_of_mem c hd)⟩

/-- A byte below every listed address reads as an unlisted one. -/
theorem Memory.readByte_below {m : Memory} {a : Nat} (h : ∀ c ∈ m, a < c.1) : Memory.readByte m a = Config.unlistedByte := by
  induction m with
  | nil => rfl
  | cons c rest ih =>
    have hc := h c List.mem_cons_self
    rw [Memory.readByte, if_neg (by omega)]
    exact ih fun d hd => h d (List.mem_cons_of_mem c hd)

/-- An entry reads as its value at its own address, where what follows it starts above that address. -/
theorem Memory.readByte_entry {m : Memory} {a : Nat} (v : Byte) (h : ∀ c ∈ m, a < c.1) (b : Nat) :
    Memory.readByte (Memory.entry a v m) b = if b = a then v else Memory.readByte m b := by
  unfold Memory.entry
  split
  · next hv =>
    split
    · next hb => rw [hb, Memory.readByte_below h, hv]
    · rfl
  · rfl

/-- Reading a byte after writing one: the written value at its address, the old value everywhere else. -/
theorem Memory.readByte_writeByte {m : Memory} (h : m.rising) (a : Nat) (v : Byte) (b : Nat) :
    Memory.readByte (Memory.writeByte m a v) b = if b = a then v else Memory.readByte m b := by
  induction m with
  | nil => exact Memory.readByte_entry v (fun _ hc => absurd hc List.not_mem_nil) b
  | cons c rest ih =>
    have ⟨hlow, hrest⟩ := List.pairwise_cons.1 h
    rw [Memory.writeByte]
    split
    · next hlt =>
      refine Memory.readByte_entry v (fun d hd => ?_) b
      rcases List.mem_cons.1 hd with rfl | hd
      · exact hlt
      · exact Nat.lt_trans hlt (hlow d hd)
    · split
      · next heq =>
        rw [Memory.readByte_entry v (fun d hd => heq ▸ hlow d hd) b, Memory.readByte]
        split <;> simp_all
      · next hne =>
        rw [Memory.readByte, ih hrest, Memory.readByte]
        by_cases hbc : b = c.1
        · rw [if_pos hbc, if_pos hbc, if_neg (by omega)]
        · rw [if_neg hbc, if_neg hbc]

theorem Memory.mem_entry {m : Memory} {a : Nat} {v : Byte} {c : Host.Cell} (h : c ∈ Memory.entry a v m) :
    (c = (a, v) ∧ v ≠ Config.unlistedByte) ∨ c ∈ m := by
  unfold Memory.entry at h
  split at h
  · exact .inr h
  · next hv => exact (List.mem_cons.1 h).imp (⟨·, hv⟩) id

/-- The entries after a write are the old ones and, where it differs from an unlisted byte, the one written. -/
theorem Memory.mem_writeByte {m : Memory} {a : Nat} {v : Byte} {c : Host.Cell} (h : c ∈ Memory.writeByte m a v) :
    (c = (a, v) ∧ v ≠ Config.unlistedByte) ∨ c ∈ m := by
  induction m with
  | nil => exact Memory.mem_entry h
  | cons d rest ih =>
    rw [Memory.writeByte] at h
    split at h
    · exact Memory.mem_entry h
    · split at h
      · exact (Memory.mem_entry h).imp_right (List.mem_cons_of_mem d)
      · rcases List.mem_cons.1 h with rfl | h
        · exact .inr List.mem_cons_self
        · exact (ih h).imp_right (List.mem_cons_of_mem d)

theorem Memory.rising_entry {m : Memory} {a : Nat} (v : Byte) (h : m.rising) (ha : ∀ c ∈ m, a < c.1) :
    Memory.rising (Memory.entry a v m) := by
  unfold Memory.entry
  split
  · exact h
  · exact List.pairwise_cons.2 ⟨ha, h⟩

theorem Memory.rising_writeByte {m : Memory} (h : m.rising) (a : Nat) (v : Byte) :
    Memory.rising (Memory.writeByte m a v) := by
  induction m with
  | nil => exact Memory.rising_entry v h fun _ hc => absurd hc List.not_mem_nil
  | cons c rest ih =>
    have ⟨hlow, hrest⟩ := List.pairwise_cons.1 h
    rw [Memory.writeByte]
    split
    · next hlt =>
      refine Memory.rising_entry v h fun d hd => ?_
      rcases List.mem_cons.1 hd with rfl | hd
      · exact hlt
      · exact Nat.lt_trans hlt (hlow d hd)
    · split
      · next heq => exact Memory.rising_entry v hrest fun d hd => heq ▸ hlow d hd
      · refine List.pairwise_cons.2 ⟨fun d hd => ?_, ih hrest⟩
        rcases Memory.mem_writeByte hd with ⟨rfl, -⟩ | hd
        · show c.1 < a
          omega
        · exact hlow d hd

/-- Writing a byte keeps the canonical form. -/
theorem Memory.wf_writeByte {m : Memory} (h : m.wf) {a : Nat} (ha : a < 2 * Config.memWords) (v : Byte) :
    Memory.wf (Memory.writeByte m a v) :=
  ⟨Memory.rising_writeByte h.1 a v, fun c hc =>
    (Memory.mem_writeByte hc).elim (fun e => ⟨by rw [e.1]; exact ha, by rw [e.1]; exact e.2⟩) (h.2 c)⟩

/-- Writing a word keeps the canonical form. -/
theorem Memory.wf_writeWord {m : Memory} (h : m.wf) {a : Nat} (ha : a < Config.memWords) (w : Word) :
    Memory.wf (Memory.writeWord m a w) :=
  Memory.wf_writeByte (Memory.wf_writeByte h (by omega) _) (by omega) _

/-- Writing consecutive words keeps the canonical form. -/
theorem Memory.wf_writeWords {m : Memory} (h : m.wf) {a : Nat} {ws : List Word} (ha : a + ws.length ≤ Config.memWords) :
    Memory.wf (Memory.writeWords m a ws) := by
  induction ws generalizing m a with
  | nil => exact h
  | cons w rest ih =>
    rw [List.length_cons] at ha
    exact ih (Memory.wf_writeWord h (by omega) w) (by omega)

theorem Memory.wf_nil : Memory.wf [] := by decide

/-- Filling cells from 0 on gives the canonical form. -/
theorem Memory.wf_fill (f : Nat → Word) {n : Nat} (h : n ≤ Config.memWords) : Memory.wf (Memory.fill f n) := by
  induction n with
  | zero => exact Memory.wf_nil
  | succ n ih => exact Memory.wf_writeWord (ih (by omega)) (by omega) _

/-- The memory built from a word for each cell is in the canonical form. -/
theorem Memory.wf_ofCells (f : Byte → Word) : Memory.wf (Memory.ofCells f) := by
  unfold Memory.ofCells
  exact Memory.wf_fill _ (Nat.le_refl _)

theorem append_bytes (w : Word) : (w.extractLsb' 8 8 ++ w.extractLsb' 0 8 : BitVec 16) = w := by
  ext i hi
  simp only [BitVec.getElem_append, BitVec.getElem_extractLsb']
  split <;> simp_all [BitVec.getLsbD_eq_getElem]

/-- Reading a byte after writing a word: the bytes of the word in its two places, the old value everywhere else. -/
theorem Memory.readByte_writeWord {m : Memory} (h : m.rising) (a : Nat) (w : Word) (b : Nat) :
    Memory.readByte (Memory.writeWord m a w) b =
      if b = 2 * a + 1 then w.extractLsb' 0 8 else if b = 2 * a then w.extractLsb' 8 8 else Memory.readByte m b := by
  rw [Memory.writeWord, Memory.readByte_writeByte (Memory.rising_writeByte h _ _), Memory.readByte_writeByte h]

/-- Reading a word after writing one: the written word at its address, the old word everywhere else. -/
theorem Memory.readWord_writeWord {m : Memory} (h : m.rising) (a : Nat) (w : Word) (b : Nat) :
    Memory.readWord (Memory.writeWord m a w) b = if b = a then w else Memory.readWord m b := by
  simp only [Memory.readWord, Memory.readByte_writeWord h]
  by_cases hb : b = a
  · subst hb
    rw [if_pos rfl, if_neg (by omega), if_pos rfl, if_pos rfl]
    exact append_bytes w
  · rw [if_neg hb, if_neg (by omega), if_neg (by omega), if_neg (by omega), if_neg (by omega)]

end Sys2Proof.Machine
end

