-- ==== Sys2Proof/Laws/State.lean ====
section
/-! SUPPORT. What each update of the state leaves in each field, by `rfl`: taking a fault, the default pending writes, the commit
and the reset state. -/

namespace Sys2Proof.Machine

@[simp] theorem takeFault_acc (s : State) (r : Fault) : (s.takeFault r).acc = s.acc := rfl
@[simp] theorem takeFault_pc (s : State) (r : Fault) : (s.takeFault r).pc = s.pc := rfl
@[simp] theorem takeFault_z (s : State) (r : Fault) : (s.takeFault r).z = s.z := rfl
@[simp] theorem takeFault_mem (s : State) (r : Fault) : (s.takeFault r).mem = s.mem := rfl
@[simp] theorem takeFault_status (s : State) (r : Fault) : (s.takeFault r).status = .faulted r := rfl

@[simp] theorem pending_acc (s : State) : s.pending.acc = s.acc := rfl
@[simp] theorem pending_z (s : State) : s.pending.z = s.z := rfl
@[simp] theorem pending_write (s : State) : s.pending.write = none := rfl
@[simp] theorem pending_nextPc (s : State) : s.pending.nextPc = s.pc + 1 := rfl
@[simp] theorem pending_halt (s : State) : s.pending.halt = false := rfl

@[simp] theorem memAfter_none (s : State) : s.memAfter none = s.mem := rfl
@[simp] theorem memAfter_some (s : State) (a v : Word) : s.memAfter (some (a, v)) = s.mem.writeWord a.toNat v := rfl

@[simp] theorem commit_acc (s : State) (p : Pending) : (s.commit p).acc = p.acc := rfl
@[simp] theorem commit_pc (s : State) (p : Pending) : (s.commit p).pc = p.nextPc := rfl
@[simp] theorem commit_z (s : State) (p : Pending) : (s.commit p).z = p.z := rfl
@[simp] theorem commit_mem (s : State) (p : Pending) : (s.commit p).mem = s.memAfter p.write := rfl
@[simp] theorem commit_status (s : State) (p : Pending) :
    (s.commit p).status = if p.halt then .halted else .running := rfl

@[simp] theorem construct_acc (a : Word) (z : Bool) (m : Byte → Word) : (construct a z m).acc = a := rfl
@[simp] theorem construct_pc (a : Word) (z : Bool) (m : Byte → Word) : (construct a z m).pc = 0 := rfl
@[simp] theorem construct_z (a : Word) (z : Bool) (m : Byte → Word) : (construct a z m).z = z := rfl
@[simp] theorem construct_mem (a : Word) (z : Bool) (m : Byte → Word) : (construct a z m).mem = Memory.ofCells m := by
  rw [construct]
@[simp] theorem construct_status (a : Word) (z : Bool) (m : Byte → Word) : (construct a z m).status = .ready := rfl

end Sys2Proof.Machine
end

