-- ==== Sys2Proof/Laws/Ops.lean ====
section
/-! SUPPORT. What each shared operation can do, said once. -/

namespace Sys2Proof.Machine

theorem inMemory_iff (a : Word) : inMemory a = true ↔ a.toNat < Config.memWords := by
  simp [inMemory]

theorem inMemory_false_iff (a : Word) : inMemory a = false ↔ Config.memWords ≤ a.toNat := by
  simp [inMemory]

@[simp] theorem zext16_toNat (x : Byte) : (zext16 x).toNat = x.toNat := by
  have := x.isLt
  simp [zext16]
  omega

/-- A zero-extended operand byte always names a cell (R21). -/
@[simp] theorem inMemory_zext16 (x : Byte) : inMemory (zext16 x) = true := by
  rw [inMemory_iff, zext16_toNat]
  exact x.isLt

/-- A memory read answers the cell inside memory and the fault outside it, and nothing else. -/
theorem memRead_cases (s : State) (a : Word) :
    (inMemory a = true ∧ s.memRead a = .ok (s.mem.readWord a.toNat)) ∨
      (inMemory a = false ∧ s.memRead a = .error .outOfBounds) := by
  unfold State.memRead
  cases h : inMemory a <;> simp

@[simp] theorem directValue_eq (s : State) (x : Byte) : s.directValue x = .ok (s.mem.readWord x.toNat) := by
  simp [State.directValue, State.memRead, directAddr]

@[simp] theorem indirectAddr_eq (s : State) (x : Byte) : s.indirectAddr x = .ok (s.mem.readWord x.toNat) := by
  simp [State.indirectAddr, State.memRead]

theorem indirectValue_eq (s : State) (x : Byte) : s.indirectValue x = s.memRead (s.mem.readWord x.toNat) := by
  simp [State.indirectValue, Except.bind]

@[simp] theorem memWrite_directAddr (x : Byte) (v : Word) : memWrite (directAddr x) v = .ok (directAddr x, v) := by
  simp [memWrite, directAddr]

/-- A pending write is made inside memory only. -/
theorem memWrite_cases (a v : Word) :
    (inMemory a = true ∧ memWrite a v = .ok (a, v)) ∨ (inMemory a = false ∧ memWrite a v = .error .outOfBounds) := by
  unfold memWrite
  cases h : inMemory a <;> simp

/-- The end of the execute phase always answers a next state: the commit or the fault. -/
theorem conclude_cases (s : State) (r : Except Fault Pending) :
    (∃ p, r = .ok p ∧ s.conclude r = .next (s.commit p)) ∨ (∃ f, r = .error f ∧ s.conclude r = .next (s.takeFault f)) := by
  cases r with
  | ok p => exact .inl ⟨p, rfl, rfl⟩
  | error f => exact .inr ⟨f, rfl, rfl⟩

/-- The ALU's sum is the sum of bit vectors. -/
theorem addWords_eq (a b : Word) : addWords a b = a + b := by
  apply BitVec.eq_of_toNat_eq
  simp [addWords]

end Sys2Proof.Machine
end

