-- ==== Sys2Proof/Laws/Exec.lean ====
section
/-! SUPPORT. What `exec` and `stepWith` can answer, said once: later proofs cite `exec_eq` and `stepWith_cases` and unfold no
meaning. -/

namespace Sys2Proof.Machine

/-- Every meaning as the commit of its pending writes, or the fault where an indirect pointer lies outside memory. -/
theorem exec_eq (i : Instr) (s : State) :
    exec i s = match i with
      | .loadImm x => .next (s.commit { s.pending with acc := zext16 x })
      | .loadDir x => .next (s.commit { s.pending with acc := s.mem.readWord x.toNat })
      | .loadInd x =>
        if inMemory (s.mem.readWord x.toNat) then
          .next (s.commit { s.pending with acc := s.mem.readWord (s.mem.readWord x.toNat).toNat })
        else .next (s.takeFault .outOfBounds)
      | .storDir x => .next (s.commit { s.pending with write := some (zext16 x, s.acc) })
      | .storInd x =>
        if inMemory (s.mem.readWord x.toNat) then
          .next (s.commit { s.pending with write := some (s.mem.readWord x.toNat, s.acc) })
        else .next (s.takeFault .outOfBounds)
      | .addImm x => .next (s.commit { s.pending with acc := s.acc + zext16 x })
      | .addDir x => .next (s.commit { s.pending with acc := s.acc + s.mem.readWord x.toNat })
      | .cmpImm x => .next (s.commit { s.pending with z := s.acc == zext16 x })
      | .cmpDir x => .next (s.commit { s.pending with z := s.acc == s.mem.readWord x.toNat })
      | .breq x => .next (s.commit { s.pending with nextPc := if s.z then zext16 x else s.pc + 1 })
      | .jump x => .next (s.commit { s.pending with nextPc := zext16 x })
      | .halt => .next (s.commit { s.pending with nextPc := s.pc, halt := true }) := by
  cases i
  case loadInd x =>
    rcases memRead_cases s (s.mem.readWord x.toNat) with ⟨h, h'⟩ | ⟨h, h'⟩ <;>
      simp [exec, execLoadInd, indirectValue_eq, h, h', State.conclude, Except.map]
  case storInd x =>
    rcases memWrite_cases (s.mem.readWord x.toNat) s.acc with ⟨h, h'⟩ | ⟨h, h'⟩ <;>
      simp [exec, execStorInd, h, h', State.conclude, Except.map, Except.bind]
  case loadDir => simp [exec, execLoadDir, State.conclude, Except.map]
  case storDir x =>
    rw [exec, execStorDir, memWrite_directAddr]
    rfl
  case addImm => simp [exec, execAddImm, State.conclude, addWords_eq, immediate]
  case addDir => simp [exec, execAddDir, State.conclude, Except.map, addWords_eq]
  case cmpDir => simp [exec, execCmpDir, State.conclude, Except.map, equalFlag]
  all_goals rfl

/-- What a step can do: nothing in a terminal state; a fetch fault; an InvalidOpcode fault; or the execution of the
instruction that the word at `PC` decodes to. -/
theorem stepWith_cases (m : OpMap) (s : State) :
    (s.status.terminal = true ∧ stepWith m s = .next s) ∨
    (s.status.terminal = false ∧ inMemory s.pc = false ∧ s.fetch = .error .outOfBounds ∧
      stepWith m s = .next (s.takeFault .outOfBounds)) ∨
    (∃ e, s.status.terminal = false ∧ inMemory s.pc = true ∧ s.fetch = .ok (s.mem.readWord s.pc.toNat) ∧
      decodeWith m (s.mem.readWord s.pc.toNat) = .error e ∧ stepWith m s = .next (s.takeFault .invalidOpcode)) ∨
    (∃ i, s.status.terminal = false ∧ inMemory s.pc = true ∧ s.fetch = .ok (s.mem.readWord s.pc.toNat) ∧
      decodeWith m (s.mem.readWord s.pc.toNat) = .ok i ∧ stepWith m s = exec i s) := by
  cases ht : s.status.terminal
  · rcases memRead_cases s s.pc with ⟨h, h'⟩ | ⟨h, h'⟩
    · have hf : s.fetch = .ok (s.mem.readWord s.pc.toNat) := h'
      cases hd : decodeWith m (s.mem.readWord s.pc.toNat) with
      | error e => exact .inr (.inr (.inl ⟨e, rfl, h, hf, rfl, by simp [stepWith, ht, hf, hd]⟩))
      | ok i => exact .inr (.inr (.inr ⟨i, rfl, h, hf, rfl, by simp [stepWith, ht, hf, hd]⟩))
    · have hf : s.fetch = .error .outOfBounds := h'
      exact .inr (.inl ⟨rfl, h, hf, by simp [stepWith, ht, hf]⟩)
  · exact .inl ⟨rfl, by simp [stepWith, ht]⟩

end Sys2Proof.Machine
end

