-- ==== Sys2Proof/Laws/HostOps.lean ====
section
/-! SUPPORT. What the host operations can do, said once. -/

namespace Sys2Proof.Machine

/-- The bounds test of `load` as arithmetic. -/
theorem loadFits_iff (image : List Word) (origin : Word) :
    loadFits image origin = true ↔
      origin.toNat < Config.memWords ∧ origin.toNat + image.length ≤ Config.memWords := by
  rw [loadFits, Bool.and_eq_true, decide_eq_true_eq, inMemory_iff]

/-- `load` copies, fails or is refused. -/
theorem load_cases (image : List Word) (origin : Word) (s : State) :
    (s.status = .ready ∧ loadFits image origin = true ∧
      load image origin s = .next ({ s with mem := s.mem.writeWords origin.toNat image }, .ok)) ∨
    (s.status = .ready ∧ loadFits image origin = false ∧ load image origin s = .next (s, .outOfBounds)) ∨
    (s.status ≠ .ready ∧ load image origin s = .refused .loadAfterFirstStep) := by
  unfold load
  by_cases hs : s.status = .ready
  · cases hf : loadFits image origin <;> simp [hs]
  · simp [hs]

/-- One turn of the loop of `run`. -/
theorem runLoop_succ {m : OpMap} {n : Nat} {s t : State} (h : stepWith m s = .next t) :
    runLoop m (n + 1) s =
      if t.status.reply = .continues then runLoop m n t else .next (t, .stepped t.status.reply) := by
  rw [runLoop, h]

/-- The outcome of a host operation is the outcome of what it calls. -/
theorem onNext_eq_next {α β : Type} {o : Host.Outcome α Fault Refusal} {f : α → β} {b : β} :
    onNext o f = .next b ↔ ∃ a, o = .next a ∧ f a = b := by
  cases o <;> simp [onNext]

/-- A step of the host's own run of a machine. -/
theorem core_run_succ {M : Host.Core} {n : Nat} {s t : M.State} (h : M.step s = .next t) :
    M.run (n + 1) s = M.run n t := by
  simp only [Host.Core.run, h]

end Sys2Proof.Machine
end

