-- ==== Sys2Proof/Laws/PerInstr.lean ====
section
/-! SUPPORT. The family `NamedByReference`: the reference opcode map gives every instruction's form a high byte, so every
instruction is well formed under it. One lemma for each constructor. -/

namespace Sys2Proof.Laws

def NamedByReference.Statement (i : Instr) : Prop := i.wellFormed refOpmap = true

theorem NamedByReference.loadImm (imm : Byte) : NamedByReference.Statement (.loadImm imm) :=
  (OpMap.names_iff _ _).2 ⟨0x1, 0x0, rfl⟩
theorem NamedByReference.loadDir (addr : Byte) : NamedByReference.Statement (.loadDir addr) :=
  (OpMap.names_iff _ _).2 ⟨0x1, 0x1, rfl⟩
theorem NamedByReference.loadInd (ptr : Byte) : NamedByReference.Statement (.loadInd ptr) :=
  (OpMap.names_iff _ _).2 ⟨0x1, 0x5, rfl⟩
theorem NamedByReference.storDir (addr : Byte) : NamedByReference.Statement (.storDir addr) :=
  (OpMap.names_iff _ _).2 ⟨0x1, 0x2, rfl⟩
theorem NamedByReference.storInd (ptr : Byte) : NamedByReference.Statement (.storInd ptr) :=
  (OpMap.names_iff _ _).2 ⟨0x1, 0x6, rfl⟩
theorem NamedByReference.addImm (imm : Byte) : NamedByReference.Statement (.addImm imm) :=
  (OpMap.names_iff _ _).2 ⟨0x2, 0x0, rfl⟩
theorem NamedByReference.addDir (addr : Byte) : NamedByReference.Statement (.addDir addr) :=
  (OpMap.names_iff _ _).2 ⟨0x2, 0x1, rfl⟩
theorem NamedByReference.cmpImm (imm : Byte) : NamedByReference.Statement (.cmpImm imm) :=
  (OpMap.names_iff _ _).2 ⟨0x3, 0x0, rfl⟩
theorem NamedByReference.cmpDir (addr : Byte) : NamedByReference.Statement (.cmpDir addr) :=
  (OpMap.names_iff _ _).2 ⟨0x3, 0x1, rfl⟩
theorem NamedByReference.breq (target : Byte) : NamedByReference.Statement (.breq target) :=
  (OpMap.names_iff _ _).2 ⟨0x4, 0x1, rfl⟩
theorem NamedByReference.jump (target : Byte) : NamedByReference.Statement (.jump target) :=
  (OpMap.names_iff _ _).2 ⟨0x5, 0x1, rfl⟩
theorem NamedByReference.halt : NamedByReference.Statement .halt :=
  (OpMap.names_iff _ _).2 ⟨0xF, 0x0, rfl⟩

end Sys2Proof.Laws
end

