-- ==== Sys2Proof/Tests/Slice0.lean ====
section
/-! SUPPORT. The model's own tests, each expected value from the spec (vector names are those of 95_test_vectors.md), and for
each statement of Certificates/Slice0/Obligations.lean that has hypotheses a theorem `witness_<statement>` that meets them. -/

namespace Sys2Proof.Tests

open Sys2Proof.Machine

/-- A state with the listed cells of memory. -/
def st (acc pc : Word) (z : Bool) (cells : List (Nat × Word)) (status : Status) : State where
  acc := acc
  pc := pc
  z := z
  mem := cells.foldl (fun (m : Memory) (c : Nat × Word) => m.writeWord c.1 c.2) []
  status := status

/-- The next state of an outcome. -/
def next? (o : Host.Outcome State Fault Refusal) : Option State :=
  match o with
  | .next s => some s
  | _ => none

/-- A field of the state after one step. -/
def field {α : Type} (f : State → α) (s : State) : Option α := (next? (step s)).map f

/-- A lawful opcode map other than the reference map: a word of all zeros is HALT in it. -/
def altOpmap : OpMap := fun o m =>
  ([((0x1, 0x0), .loadImm), ((0x1, 0x2), .storDir), ((0x1, 0x1), .loadDir), ((0x1, 0x3), .loadInd), ((0x1, 0x4), .storInd),
    ((0x2, 0x8), .addImm), ((0x3, 0x8), .addDir), ((0x4, 0x8), .cmpImm), ((0x5, 0x8), .cmpDir), ((0xE, 0xE), .breq),
    ((0xE, 0xF), .jump), ((0x0, 0x0), .halt)] : List ((Nibble × Nibble) × Form)).lookup (o, m)

/-! ### Well-formedness: each check refuses an ill-formed term -/

theorem test_map_without_0x10_refused : OpMap.lawful (fun _ _ => none) = false := by decide
theorem test_map_without_0x12_refused :
    OpMap.lawful (fun o m => if o = 1 ∧ m = 0 then some .loadImm else none) = false := by decide
theorem test_map_without_a_form_refused :
    OpMap.lawful (fun o m => if refOpmap o m = some .halt then none else refOpmap o m) = false := by decide +kernel
theorem test_other_map_accepted : altOpmap.lawful = true := by decide +kernel
theorem test_instruction_without_encoding_refused :
    (Instr.jump 0x05).wellFormed (fun o m => if o = 5 then none else refOpmap o m) = false := by decide +kernel

/-! ### Decoding: each constructor from a word written out from its encoding (R40) -/

theorem test_decode_loadImm : decode 0b0001000010000000 = .ok (.loadImm 0x80) := by decide
theorem test_decode_loadDir : decode 0b0001000110010000 = .ok (.loadDir 0x90) := by decide
theorem test_decode_loadInd : decode 0b0001010110011111 = .ok (.loadInd 0x9F) := by decide
theorem test_decode_storDir : decode 0b0001001010011111 = .ok (.storDir 0x9F) := by decide
theorem test_decode_storInd : decode 0b0001011010011111 = .ok (.storInd 0x9F) := by decide
theorem test_decode_addImm : decode 0b0010000000000001 = .ok (.addImm 0x01) := by decide
theorem test_decode_addDir : decode 0b0010000110010001 = .ok (.addDir 0x91) := by decide
theorem test_decode_cmpImm : decode 0b0011000010010000 = .ok (.cmpImm 0x90) := by decide
theorem test_decode_cmpDir : decode 0b0011000110100000 = .ok (.cmpDir 0xA0) := by decide
theorem test_decode_breq : decode 0b0100000100010011 = .ok (.breq 0x13) := by decide
theorem test_decode_jump : decode 0b0101000100000101 = .ok (.jump 0x05) := by decide
theorem test_decode_halt : decode 0b1111000010101011 = .ok .halt := by decide
theorem test_decode_rejects_by_name : decode 0x1300 = .error (.invalidOpcode 0x1 0x3) := by decide
theorem test_encode_halt : encode .halt = 0xF000 := by decide
theorem test_table_word : decodeTableWord 16 0x129F = some (.storDir 0x9F) := by decide
theorem test_fetch_word_runs_from_reset : field (·.acc) (State.reset.withFetchWord 16 0x10FF) = some 0x00FF := by decide

/-! ### One step of each instruction -/

/-- LS1. -/
theorem test_loadImm_replaces_acc : field (·.acc) (st 0x1234 0 false [(0, 0x1080)] .ready) = some 0x0080 := by decide
/-- LS2: no sign extension. -/
theorem test_loadImm_zero_extends : field (·.acc) (st 0 0 false [(0, 0x10FF)] .running) = some 0x00FF := by decide
/-- LS4. -/
theorem test_loadDir_whole_word :
    field (·.acc) (st 0 0 false [(0, 0x1190), (0x90, 0xBEEF)] .running) = some 0xBEEF := by decide
/-- LS5: it reads its own word, at an odd address (R24). -/
theorem test_loadDir_own_word : field (·.acc) (st 0 5 false [(5, 0x1105)] .running) = some 0x1105 := by decide
/-- LS7. -/
theorem test_loadInd_last_cell :
    field (·.acc) (st 0 0 false [(0, 0x159F), (0x9F, 0x00FF), (0xFF, 0x4242)] .running) = some 0x4242 := by decide
/-- LS8: the fault keeps `ACC` and `PC`. -/
theorem test_loadInd_pointer_0100_faults :
    next? (step (st 7 3 true [(3, 0x159F), (0x9F, 0x0100)] .running)) =
      some (st 7 3 true [(3, 0x159F), (0x9F, 0x0100)] (.faulted .outOfBounds)) := by decide
/-- LS11. -/
theorem test_storDir_writes_cell :
    next? (step (st 0x0080 1 true [(1, 0x129F)] .running)) =
      some (st 0x0080 2 true [(1, 0x129F), (0x9F, 0x0080)] .running) := by decide
/-- LS13, the source's round trip (A5). -/
theorem test_storInd_writes_pointed_cell :
    next? (step (st 7 1 false [(1, 0x169F), (0x9F, 0x0080)] .running)) =
      some (st 7 2 false [(1, 0x169F), (0x9F, 0x0080), (0x80, 7)] .running) := by decide
/-- LS15. -/
theorem test_storInd_pointer_0100_faults :
    next? (step (st 7 4 false [(4, 0x1620), (0x20, 0x0100)] .running)) =
      some (st 7 4 false [(4, 0x1620), (0x20, 0x0100)] (.faulted .outOfBounds)) := by decide
/-- A3: wraps, and `Z` is not written. -/
theorem test_addImm_wraps :
    next? (step (st 0xFF01 0 false [(0, 0x20FF)] .running)) = some (st 0 1 false [(0, 0x20FF)] .running) := by decide
/-- A7. -/
theorem test_addDir_wraps :
    field (·.acc) (st 0xFFFF 0 false [(0, 0x2140), (0x40, 0xFFFF)] .running) = some 0xFFFE := by decide
/-- A8. -/
theorem test_addDir_own_word : field (·.acc) (st 1 7 false [(7, 0x2107)] .running) = some 0x2108 := by decide
/-- C3: the upper byte counts. -/
theorem test_cmpImm_upper_byte : field (·.z) (st 0x0100 0 true [(0, 0x3000)] .running) = some false := by decide
/-- C4. -/
theorem test_cmpImm_equal : field (·.z) (st 0x00FF 0 false [(0, 0x30FF)] .running) = some true := by decide
/-- C6. -/
theorem test_cmpDir_equal :
    field (·.z) (st 0x1234 0 false [(0, 0x31A0), (0xA0, 0x1234)] .running) = some true := by decide
/-- C7. -/
theorem test_cmpDir_differs :
    field (·.z) (st 0x1234 0 true [(0, 0x31A0), (0xA0, 0x1235)] .running) = some false := by decide
/-- K1. -/
theorem test_breq_taken : field (·.pc) (st 0 0x11 true [(0x11, 0x4113)] .running) = some 0x13 := by decide
/-- K2. -/
theorem test_breq_not_taken : field (·.pc) (st 0 0x11 false [(0x11, 0x4113)] .running) = some 0x12 := by decide
/-- K4. -/
theorem test_jump : next? (step (st 9 0x12 true [(0x12, 0x5105)] .running)) =
    some (st 9 0x05 true [(0x12, 0x5105)] .running) := by decide
/-- K8: HALT as the first step. -/
theorem test_halt_first : next? (step (st 9 0 true [(0, 0xF000)] .ready)) =
    some (st 9 0 true [(0, 0xF000)] .halted) := by decide
/-- K9: `PC` passes the end of memory. -/
theorem test_pc_reaches_0100 : field (·.pc) (st 0 0xFF false [(0xFF, 0x2001)] .running) = some 0x0100 := by decide
/-- F1, at reset: memory of zeros holds invalid words. -/
theorem test_invalid_word_faults : field (·.status) State.reset = some (.faulted .invalidOpcode) := by decide
/-- F2. -/
theorem test_fetch_0100_faults : field (·.status) (st 0 0x0100 false [] .running) = some (.faulted .outOfBounds) := by decide
/-- H3: nothing is copied. -/
theorem test_load_one_too_many : load [5, 6] 0x00FF State.reset = .next (State.reset, .outOfBounds) := by rfl
/-- H6. -/
theorem test_load_origin_outside : load [] 0x0100 State.reset = .next (State.reset, .outOfBounds) := by rfl
/-- K5. -/
theorem test_run_limit :
    run refOpmap 10 (st 0 0 false [(0, 0x5100)] .ready) =
      .next (st 0 0 false [(0, 0x5100)] .running, .stepLimitExceeded) := by rfl

/-! ### Witnesses: the hypotheses of each statement can be met -/

/-- A live state: `PC` at a LOAD, the pointer cell 0x9F at the last cell, and the pointer cell 0x20 just past memory. -/
def live : State := st 7 1 true [(1, 0x159F), (0x9F, 0x00FF), (0x20, 0x0100)] .running

theorem witness_LoadImmediateZeroExtendsIntoAcc :
    altOpmap.lawful = true ∧ live.status.terminal = false ∧ State.reset.status.terminal = false :=
  ⟨test_other_map_accepted, by decide, by decide⟩
theorem witness_LoadDirectCopiesCellIntoAcc : live.status.terminal = false := by decide
theorem witness_LoadIndirectCopiesPointedCellIntoAcc :
    live.status.terminal = false ∧ (live.mem.readWord (0x9F : Byte).toNat).toNat < 0x100 := by decide
theorem witness_StorDirectReplacesCell : altOpmap.lawful = true ∧ live.status.terminal = false ∧ live.mem.wf :=
  ⟨test_other_map_accepted, by decide, by decide⟩
theorem witness_StorIndirectReplacesPointedCell :
    live.status.terminal = false ∧ live.mem.wf ∧ live.indirectAddr 0x9F = .ok 0x00FF ∧ (0x00FF : Word).toNat < 0x100 ∧
      (0x00FF : Word) ≠ (0x9F : Byte).setWidth 16 := by decide
theorem witness_IndirectPointerOutsideMemoryFaults :
    live.status.terminal = false ∧ 0x100 ≤ (live.mem.readWord (0x20 : Byte).toNat).toNat := by decide
theorem witness_AddIsSilentModularAddition : live.status.terminal = false := by decide
theorem witness_CompareWritesOnlyTheEqualFlag : live.status.terminal = false := by decide
theorem witness_BranchIfEqualFollowsFlag :
    live.status.terminal = false ∧ live.z = true ∧ State.reset.status.terminal = false ∧ State.reset.z = false := by decide
theorem witness_JumpGoesToTarget : live.status.terminal = false := by decide
theorem witness_HaltChangesOnlyStatus : live.status.terminal = false := by decide
theorem witness_ControlTransferLandsOnAbsoluteTarget :
    live.status.terminal = false ∧ live.z = true ∧
    decodeWith refOpmap (live.mem.readWord (0xFF : Byte).toNat) = .error (.invalidOpcode 0x0 0x0) := by decide
theorem witness_PcAfterCommitOfEveryForm : live.status.terminal = false ∧
    (∃ t, exec (.jump 0xFF) live = .next t ∧ t.status = .running) ∧
    (∃ t, exec (.breq 0xFF) live = .next t ∧ t.status = .running) ∧
    (∃ t, exec (.addImm 0xFF) live = .next t ∧ t.status = .running) ∧
    ∃ t, exec .halt live = .next t ∧ t.status = .halted :=
  ⟨by decide, ⟨_, rfl, rfl⟩, ⟨_, rfl, rfl⟩, ⟨_, rfl, rfl⟩, ⟨_, rfl, rfl⟩⟩
theorem witness_AccessMatrixWrites :
    (∃ t, exec (.cmpImm 0x07) live = .next t) ∧ (∃ t, exec (.storDir 0xFF) live = .next t) ∧
    ∃ t, exec (.storInd 0x20) live = .next t ∧ t.status = .faulted .outOfBounds :=
  ⟨⟨_, rfl⟩, ⟨_, rfl⟩, ⟨_, rfl, rfl⟩⟩
theorem witness_AccUnreadByControlAndLoad :
    (∃ t, exec (.breq 0xFF) live = .next t) ∧ ∃ t, exec (.loadInd 0x9F) live = .next t ∧ t.status = .running :=
  ⟨⟨_, rfl⟩, ⟨_, rfl, rfl⟩⟩
theorem witness_FlagReadOnlyByBranch :
    (∃ t, exec (.cmpImm 0x07) live = .next t) ∧ ∃ t, exec (.jump 0xFF) live = .next t :=
  ⟨⟨_, rfl⟩, ⟨_, rfl⟩⟩
theorem witness_DecodeFollowsMapAndInvalidWordFaults :
    refOpmap ((0x1000 : Word).extractLsb' 12 4) ((0x1000 : Word).extractLsb' 8 4) = some .loadImm ∧
    refOpmap ((0x0000 : Word).extractLsb' 12 4) ((0x0000 : Word).extractLsb' 8 4) = none ∧
    State.reset.status.terminal = false ∧ State.reset.fetch = .ok 0x0000 := by decide
theorem witness_OperandByteNeverDecidesTheForm :
    decodeWith refOpmap (wordOf 0xF 0x0 0xAB) = .ok .halt ∧ 0xF000 ≤ (0xF000 : Word).toNat ∧
    (0xF0FF : Word).toNat ≤ 0xF0FF := by decide
theorem witness_DecodeInvertsEncodeUnderEveryMap :
    Instr.halt.wellFormed altOpmap = true ∧ (Instr.loadImm 0xFF).wellFormed refOpmap = true ∧ altOpmap.lawful = true :=
  ⟨by decide +kernel, by decide +kernel, test_other_map_accepted⟩
theorem witness_ReferenceEncodingIsExact : decode 0x51FF = .ok (.jump 0xFF) ∧ decode 0xF0AB = .ok .halt := by decide
theorem witness_AccessPrimitives :
    live.mem.wf ∧ (0x00FF : Word).toNat < 0x100 ∧ 0x100 ≤ (0x0100 : Word).toNat := by decide
theorem witness_CellHoldsLastWrite : live.mem.wf := by decide
theorem witness_CanonicalMemoryIsItsWords :
    Memory.wf (Memory.writeWord [] 0xFF 0x0001) ∧ Memory.wf (Memory.writeWord (Memory.writeWord [] 0xFF 0x1234) 0xFF 0x0001) ∧
    Memory.writeWord [] 0xFF 0x0001 = Memory.writeWord (Memory.writeWord [] 0xFF 0x1234) 0xFF 0x0001 := by decide
/-- LS12 moved to the end of memory: a HALT word is about to be stored into the last cell, which the next step fetches. -/
def storesNextDirect : State := st 0xF000 0xFE false [(0xFE, 0x12FF)] .running

/-- The same through the pointer cell 0x20. -/
def storesNextIndirect : State := st 0xF000 0xFE false [(0xFE, 0x1620), (0x20, 0x00FF)] .running

theorem witness_StoredWordIsFetchedByNextStep :
    ((0x00FF : Word) = directAddr 0xFF ∧ (0x00FF : Word).toNat < 0x100 ∧ decodeWith refOpmap 0xF000 = .ok .halt) ∧
    (storesNextDirect.status.terminal = false ∧ storesNextDirect.mem.wf ∧ storesNextDirect.fetch = .ok 0x12FF ∧
      decodeWith refOpmap 0x12FF = .ok (.storDir 0xFF) ∧ (0x00FF : Word).toNat = storesNextDirect.pc.toNat + 1 ∧
      storesNextDirect.acc = 0xF000) ∧
    (storesNextIndirect.status.terminal = false ∧ storesNextIndirect.mem.wf ∧ storesNextIndirect.fetch = .ok 0x1620 ∧
      decodeWith refOpmap 0x1620 = .ok (.storInd 0x20) ∧ storesNextIndirect.indirectAddr 0x20 = .ok 0x00FF ∧
      (0x00FF : Word).toNat = storesNextIndirect.pc.toNat + 1 ∧ storesNextIndirect.acc = 0xF000) := by decide
theorem witness_StepRunsTheDecodedInstruction :
    live.status.terminal = false ∧ live.fetch = .ok 0x159F ∧ decode 0x159F = .ok (.loadInd 0x9F) ∧
      (Instr.loadInd 0x9F).wellFormed refOpmap = true :=
  ⟨by decide, by decide, by decide, by decide +kernel⟩
theorem witness_StepRefinesThePseudocode : live.mem.wf ∧ Memory.wf [] := by decide
theorem witness_TerminalStepIsANoop :
    (st 0 0 false [(0, 0xF000)] .halted).status = .halted ∧
    (st 0 0 false [] (.faulted .invalidOpcode)).status = .faulted .invalidOpcode ∧
    live.status = .running ∧ live.fetch = .ok 0x159F ∧ decodeWith refOpmap 0x159F = .ok (.loadInd 0x9F) := by decide
theorem witness_FetchFaultsExactlyPastMemory :
    let s := st 0 0x00FF false [(0xFF, 0x2001)] .running
    s.status.terminal = false ∧ s.pc.toNat < 0x100 ∧ s.pc = 0x00FF ∧
    (∃ t, exec (.addImm 0x01) s = .next t ∧ t.status = .running) ∧
    0x100 ≤ (st 0 0x0100 false [] .running).pc.toNat ∧ (st 0 0x0100 false [] .running).status.terminal = false :=
  ⟨by decide, by decide, by decide, ⟨_, rfl, rfl⟩, by decide, by decide⟩
theorem witness_FaultingStepChangesOnlyStatus :
    (st 0 0x0100 false [] .running).fetch = .error .outOfBounds ∧
    decodeWith refOpmap 0x0000 = .error (.invalidOpcode 0x0 0x0) ∧ State.reset.fetch = .ok 0x0000 ∧
    live.status.terminal = false ∧ live.indirectValue 0x20 = .error .outOfBounds ∧
    live.indirectAddr 0x20 = .ok 0x0100 ∧ memWrite 0x0100 live.acc = .error .outOfBounds ∧
    (st 0 0 false [(0, 0x1520)] .running).fetch = .ok 0x1520 ∧ decodeWith refOpmap 0x1520 = .ok (.loadInd 0x20) ∧
    decodeWith refOpmap 0x1620 = .ok (.storInd 0x20) := by decide
theorem witness_StatusAfterStepByCause : live.status.terminal = false ∧ ∃ t, stepWith refOpmap live = .next t :=
  ⟨by decide, _, rfl⟩
theorem witness_CompareThenBranchGoesIffEqual :
    let s := st 0x1234 0xFE false [(0xFE, 0x31A0), (0xFF, 0x4113), (0xA0, 0x1234)] .running
    s.status.terminal = false ∧ s.pc.toNat + 1 < 0x100 ∧ s.fetch = .ok 0x31A0 ∧
      decodeWith refOpmap 0x31A0 = .ok (.cmpDir 0xA0) ∧ s.memRead (s.pc + 1) = .ok 0x4113 ∧
      decodeWith refOpmap 0x4113 = .ok (.breq 0x13) := by decide

/-- The live state has the invariant, under every map. -/
theorem live_inv (m : OpMap) : live.Inv m :=
  ⟨by decide, by decide, (absurd · (by decide)), (absurd · (by decide)), (absurd · (by decide)), (absurd · (by decide)),
    (absurd · (by decide))⟩

theorem witness_StepKeepsTheMachineInvariant : live.Inv refOpmap ∧ ∃ t, step live = .next t :=
  ⟨live_inv _, _, rfl⟩
theorem witness_HostOperationKeepsTheMachineInvariant :
    live.Inv refOpmap ∧ (∃ t reply, perform refOpmap .step live = .next (t, reply)) ∧
    (∃ t reply, perform refOpmap (.run 2) live = .next (t, reply)) ∧
    ∃ t reply, perform refOpmap (.inspect (.cell 0x00FF)) live = .next (t, reply) :=
  ⟨live_inv _, ⟨_, _, rfl⟩, ⟨_, _, rfl⟩, ⟨_, _, rfl⟩⟩

/-- A memory of zeros lists nothing. -/
theorem ofCells_zero : Memory.ofCells (fun _ => 0) = [] := by decide +kernel

/-- The machine constructed over zeros, in data that a test can evaluate. -/
theorem constructed_reachable (m : OpMap) : Reachable m (st 0 0 false [] .ready) := by
  have h := Reachable.construct (m := m) 0 false fun _ => 0
  rwa [construct, ofCells_zero] at h

/-- The machine that two loads put one word each into, one of them at the entry point. -/
theorem loaded_reachable (m : OpMap) (w v : Word) (a : Byte) :
    Reachable m { st 0 0 false [] .ready with mem := (Memory.writeWord [] 0 w).writeWord a.toNat v } := by
  refine .perform (op := .load [v] (zext16 a)) (.perform (op := .load [w] 0) (constructed_reachable m) rfl) (reply := .load .ok) ?_
  have hfit : loadFits [v] (zext16 a) = true :=
    (loadFits_iff _ _).2 (by rw [zext16_toNat]; exact ⟨a.isLt, a.isLt⟩)
  simp [perform, load, hfit, onNext, Memory.writeWords, st]

/-- A state for each clause: Ready; Halted on a first HALT; an invalid first word; LOAD ($20) with 0x0100 in cell 0x20; and
JUMP $FF to an ADD in the last cell, after which `PC` is 0x0100. -/
theorem witness_ReachableStateExplainsItsStatus :
    (∃ s, Reachable refOpmap s ∧ s.status = .ready) ∧
    (∃ s, Reachable refOpmap s ∧ s.status = .halted) ∧
    (∃ s, Reachable refOpmap s ∧ s.status = .faulted .invalidOpcode) ∧
    (∃ s, Reachable refOpmap s ∧ s.status = .faulted .outOfBounds ∧ s.pc = 0x0000) ∧
    ∃ s, Reachable refOpmap s ∧ s.status = .faulted .outOfBounds ∧ s.pc = 0x0100 :=
  ⟨⟨_, constructed_reachable _, rfl⟩,
    ⟨_, .perform (op := .step) (loaded_reachable _ 0xF000 0x0000 0xFF) rfl, rfl⟩,
    ⟨_, .perform (op := .step) (constructed_reachable _) rfl, rfl⟩,
    ⟨_, .perform (op := .step) (loaded_reachable _ 0x1520 0x0100 0x20) rfl, rfl, rfl⟩,
    ⟨_, .perform (op := .run 3) (loaded_reachable _ 0x51FF 0x2001 0xFF) rfl, rfl, rfl⟩⟩
theorem witness_ConstructedStateHasResetValues :
    ∃ t, load [0xF000] 0x00FF (construct 0 false fun _ => 0) = .next (t, .ok) ∧ 0 < [(0xF000 : Word)].length :=
  ⟨_, rfl, by decide⟩
theorem witness_LoadCopiesAllOrNothing :
    State.reset.mem.wf ∧ State.reset.status = .ready ∧
    ((0x00FF : Word).toNat < 0x100 ∧ (0x00FF : Word).toNat + [(5 : Word)].length ≤ 0x100) ∧
    0x100 < (0x00FF : Word).toNat + [(5 : Word), 6].length ∧ 0x100 ≤ (0x0100 : Word).toNat ∧
    live.status ≠ .ready := by decide
theorem witness_HostNeverWritesMemoryAfterTheFirstStep :
    live.status ≠ .ready ∧ (∃ t, stepWith refOpmap live = .next t) ∧
    (∃ t reply, perform refOpmap (.run 3) live = .next (t, reply)) ∧
    ∃ t reply, perform refOpmap (.inspect .status) live = .next (t, reply) :=
  ⟨by decide, ⟨_, rfl⟩, ⟨_, _, rfl⟩, ⟨_, _, rfl⟩⟩
theorem witness_InspectionReadsWithoutEffect : (0x00FF : Word).toNat < 0x100 ∧ 0x100 ≤ (0x0100 : Word).toNat := by decide
theorem witness_RunIsBoundedRepeatedStep :
    (∃ t, run refOpmap 0 State.reset = .next (t, .stepped .continues)) ∧
    (∃ t, run refOpmap 2 State.reset = .next (t, .stepped (.fault .invalidOpcode))) ∧
    ∃ t, run refOpmap 1 live = .next (t, .stepLimitExceeded) :=
  ⟨⟨_, rfl⟩, ⟨_, rfl⟩, ⟨_, rfl⟩⟩
theorem witness_RunResumesAfterStepLimit : ∃ t, run refOpmap 1 live = .next (t, .stepLimitExceeded) := ⟨_, rfl⟩
theorem witness_TerminalStateIsForever : (st 0 0 false [(0, 0xF000)] .halted).status.terminal = true := by decide
theorem witness_PlacedWordIsTheNextInstruction :
    State.reset.mem.wf ∧ (st 0 0xFFFF false [] .halted).mem.wf ∧ decodeTableWord 16 0x1000 = some (.loadImm 0x00) := by decide

end Sys2Proof.Tests
end

section
/-! PROOF. The write columns of the access matrix (spec 10_state.md R19): every meaning ends in a fault, which writes no
register and no cell, or in the commit of pending writes that keep to the columns of its form. -/

namespace Sys2Proof.Machine

/-- The forms with `ACC` in their write column. -/
abbrev Form.accWriters : List Form := [.loadImm, .loadDir, .loadInd, .addImm, .addDir]

/-- The forms with `Z` in their write column. -/
abbrev Form.flagWriters : List Form := [.cmpImm, .cmpDir]

/-- The forms with `MEM` in their write column. -/
abbrev Form.memWriters : List Form := [.storDir, .storInd]

/-- Pending writes of a step from `s` that change nothing outside the write columns of the form `f`. -/
structure Pending.WithinColumns (p : Pending) (s : State) (f : Form) : Prop where
  acc : f ∉ Form.accWriters → p.acc = s.acc
  z : f ∉ Form.flagWriters → p.z = s.z
  write : f ∉ Form.memWriters → p.write = none

theorem withinColumns_acc {f : Form} (h : f ∈ Form.accWriters) (s : State) (v : Word) :
    Pending.WithinColumns { s.pending with acc := v } s f :=
  ⟨fun hn => absurd h hn, fun _ => pending_z s, fun _ => pending_write s⟩

theorem withinColumns_z {f : Form} (h : f ∈ Form.flagWriters) (s : State) (b : Bool) :
    Pending.WithinColumns { s.pending with z := b } s f :=
  ⟨fun _ => pending_acc s, fun hn => absurd h hn, fun _ => pending_write s⟩

theorem withinColumns_write {f : Form} (h : f ∈ Form.memWriters) (s : State) (wr : Word × Word) :
    Pending.WithinColumns { s.pending with write := some wr } s f :=
  ⟨fun _ => pending_acc s, fun _ => pending_z s, fun hn => absurd h hn⟩

/-- The next `PC` and the halt bit are bounded by none of the three columns, so any form may set them. -/
theorem withinColumns_control (f : Form) (s : State) (pc : Word) (b : Bool) :
    Pending.WithinColumns { s.pending with nextPc := pc, halt := b } s f :=
  ⟨fun _ => pending_acc s, fun _ => pending_z s, fun _ => pending_write s⟩

/-- What any meaning answers: the commit of pending writes within the columns of its form, or a fault taken. -/
theorem exec_commits_within_columns_or_faults (i : Instr) (s : State) :
    (∃ p, Pending.WithinColumns p s i.form ∧ exec i s = .next (s.commit p)) ∨
      ∃ r, exec i s = .next (s.takeFault r) := by
  rw [exec_eq]
  cases i with
  | loadImm | loadDir | addImm | addDir => exact .inl ⟨_, withinColumns_acc (by simp [Instr.form]) s _, rfl⟩
  | cmpImm | cmpDir => exact .inl ⟨_, withinColumns_z (by simp [Instr.form]) s _, rfl⟩
  | storDir => exact .inl ⟨_, withinColumns_write (by simp [Instr.form]) s _, rfl⟩
  | breq | jump | halt => exact .inl ⟨_, withinColumns_control _ s _ _, rfl⟩
  | loadInd x =>
    cases hp : inMemory (s.mem.readWord x.toNat) with
    | true => exact .inl ⟨_, withinColumns_acc (by simp [Instr.form]) s _, if_pos hp⟩
    | false => exact .inr ⟨.outOfBounds, if_neg (by simp [hp])⟩
  | storInd x =>
    cases hp : inMemory (s.mem.readWord x.toNat) with
    | true => exact .inl ⟨_, withinColumns_write (by simp [Instr.form]) s _, if_pos hp⟩
    | false => exact .inr ⟨.outOfBounds, if_neg (by simp [hp])⟩

/-- Settles O15: a commit changes what its pending writes change, and a fault changes only `STATUS`. -/
theorem accessMatrixWrites : Obligations.AccessMatrixWrites := by
  intro i s t h
  rcases exec_commits_within_columns_or_faults i s with ⟨p, hp, hcommit⟩ | ⟨r, hfault⟩
  · obtain rfl : s.commit p = t := Host.Outcome.next.inj (hcommit.symm.trans h)
    exact ⟨hp.acc, hp.z, fun hn => by rw [commit_mem, hp.write hn, memAfter_none]⟩
  · obtain rfl : s.takeFault r = t := Host.Outcome.next.inj (hfault.symm.trans h)
    exact ⟨fun _ => takeFault_acc s r, fun _ => takeFault_z s r, fun _ => takeFault_mem s r⟩

end Sys2Proof.Machine
end

section
/-! PROOF. The state after construction (spec 10_state.md R18): what the memory built cell by cell reads as, and what a run of
consecutive writes leaves in it. -/

namespace Sys2Proof.Machine

theorem Memory.rising_writeWord {m : Memory} (h : m.rising) (a : Nat) (w : Word) :
    Memory.rising (Memory.writeWord m a w) :=
  Memory.rising_writeByte (Memory.rising_writeByte h _ _) _ _

/-- Writing consecutive words leaves every cell outside them alone. -/
theorem Memory.readWord_writeWords_outside {m : Memory} (h : m.rising) {a b : Nat} {ws : List Word}
    (hb : b < a ∨ a + ws.length ≤ b) : Memory.readWord (Memory.writeWords m a ws) b = Memory.readWord m b := by
  induction ws generalizing m a with
  | nil => rfl
  | cons w rest ih =>
    rw [List.length_cons] at hb
    rw [Memory.writeWords, ih (Memory.rising_writeWord h a w) (by omega), Memory.readWord_writeWord h, if_neg (by omega)]

/-- Writing consecutive words puts word `k` of them `k` cells after the first. -/
theorem Memory.readWord_writeWords_inside {m : Memory} (h : m.rising) (a : Nat) {ws : List Word} {k : Nat}
    (hk : k < ws.length) : Memory.readWord (Memory.writeWords m a ws) (a + k) = ws[k] := by
  induction ws generalizing m a k with
  | nil => exact absurd hk (Nat.not_lt_zero k)
  | cons w rest ih =>
    have hr := Memory.rising_writeWord h a w
    rw [Memory.writeWords]
    cases k with
    | zero =>
      rw [Memory.readWord_writeWords_outside hr (by omega), Memory.readWord_writeWord h, if_pos (Nat.add_zero a),
        List.getElem_cons_zero]
    | succ k =>
      rw [show a + (k + 1) = a + 1 + k by omega, ih hr (a + 1) (Nat.lt_of_succ_lt_succ hk), List.getElem_cons_succ]

/-- A filled memory holds the word of `f` in each cell that was filled. -/
theorem Memory.readWord_fill (f : Nat → Word) {n a : Nat} (hn : n ≤ Config.memWords) (ha : a < n) :
    Memory.readWord (Memory.fill f n) a = f a := by
  induction n with
  | zero => exact absurd ha (Nat.not_lt_zero a)
  | succ n ih =>
    rw [Memory.fill, Memory.readWord_writeWord (Memory.wf_fill f (by omega)).1]
    split
    · next heq => rw [heq]
    · next hne => exact ih (by omega) (by omega)

/-- The memory built from a word for each cell reads as those words. -/
theorem Memory.readWord_ofCells (mem0 : Byte → Word) (a : Byte) : (Memory.ofCells mem0).readWord a.toNat = mem0 a := by
  have ha : a.toNat < Config.memWords := a.isLt
  unfold Memory.ofCells
  rw [Memory.readWord_fill _ (Nat.le_refl _) ha, BitVec.ofNat_toNat, BitVec.setWidth_eq]

/-- A load that answers Ok has written its image, and nothing else, over the memory. -/
theorem load_ok_eq {image : List Word} {origin : Word} {s t : State} (h : load image origin s = .next (t, .ok)) :
    t = { s with mem := s.mem.writeWords origin.toNat image } := by
  rcases load_cases image origin s with ⟨-, -, hl⟩ | ⟨-, -, hl⟩ | ⟨-, hl⟩
  · exact (Prod.mk.inj (Host.Outcome.next.inj (h.symm.trans hl))).1
  · exact nomatch (Prod.mk.inj (Host.Outcome.next.inj (h.symm.trans hl))).2
  · exact nomatch h.symm.trans hl

/-- A load that answers Ok into a canonical memory leaves word `k` of its image `k` cells after the origin. -/
theorem readWord_of_load_ok {image : List Word} {origin : Word} {s t : State} (hwf : s.mem.wf)
    (h : load image origin s = .next (t, .ok)) {k : Nat} (hk : k < image.length) :
    t.mem.readWord (origin.toNat + k) = image[k] := by
  rw [load_ok_eq h]
  exact Memory.readWord_writeWords_inside hwf.1 origin.toNat hk

/-- Settles O41: the registers by the equations of `construct`, the cells by `Memory.readWord_ofCells`, and the loaded cells
because the constructed memory is canonical. -/
theorem constructedStateHasResetValues : Obligations.ConstructedStateHasResetValues := by
  intro acc0 z0 mem0
  refine ⟨construct_pc .., construct_status .., construct_acc .., construct_z .., fun a => ?_,
    fun image origin t h k hk => readWord_of_load_ok ?_ h hk⟩
  · rw [construct_mem]
    exact Memory.readWord_ofCells mem0 a
  · rw [construct_mem]
    exact Memory.wf_ofCells mem0

end Sys2Proof.Machine
end

section
/-! PROOF. The access primitives (spec 20_memory.md R22): the answers of `MemRead` and `MemWrite` on both sides of the bound,
and what a read finds after a write inside memory. -/

namespace Sys2Proof.Machine

theorem memRead_inside {a : Word} (ha : a.toNat < Config.memWords) (s : State) :
    s.memRead a = .ok (s.mem.readWord a.toNat) :=
  if_pos ((inMemory_iff a).2 ha)

theorem memRead_outside {a : Word} (ha : Config.memWords ≤ a.toNat) (s : State) : s.memRead a = .error .outOfBounds :=
  if_neg (Bool.eq_false_iff.1 ((inMemory_false_iff a).2 ha))

theorem memWrite_inside {a : Word} (ha : a.toNat < Config.memWords) (v : Word) : memWrite a v = .ok (a, v) :=
  if_pos ((inMemory_iff a).2 ha)

theorem memWrite_outside {a : Word} (ha : Config.memWords ≤ a.toNat) (v : Word) : memWrite a v = .error .outOfBounds :=
  if_neg (Bool.eq_false_iff.1 ((inMemory_false_iff a).2 ha))

/-- A read after a write inside memory: at the written address the value; at any other address, outside memory too, the
answer of before. -/
theorem memRead_memAfter_some {s : State} (hwf : s.mem.wf) {a : Word} (ha : a.toNat < Config.memWords) (v b : Word) :
    ({ s with mem := s.memAfter (some (a, v)) } : State).memRead b = if b = a then .ok v else s.memRead b := by
  rcases Nat.lt_or_ge b.toNat Config.memWords with hb | hb
  · rw [memRead_inside hb, memRead_inside hb, memAfter_some, Memory.readWord_writeWord hwf.1]
    by_cases hba : b = a
    · rw [if_pos hba, if_pos (congrArg BitVec.toNat hba)]
    · rw [if_neg hba, if_neg (mt BitVec.eq_of_toNat_eq hba)]
  · have hba : b ≠ a := fun h => Nat.not_lt.2 hb (h ▸ ha)
    rw [if_neg hba, memRead_outside hb, memRead_outside hb]

/-- Settles O25: the answers inside memory, with the read after the write, and the faults outside. -/
theorem accessPrimitives : Obligations.AccessPrimitives := by
  intro s a v hwf
  exact ⟨fun ha => ⟨memRead_inside ha s, memWrite_inside ha v, memRead_memAfter_some hwf ha v⟩,
    fun ha => ⟨memRead_outside ha s, memWrite_outside ha v⟩⟩

end Sys2Proof.Machine
end

section
/-! PROOF. The refinement of the pseudocode (spec 40_execution_cycle.md R58): the simulation relation between an outcome of the
machine and an answer of the pseudocode, one lemma for each way the machine's execute phase ends, and the step from these. -/

namespace Sys2Proof.Machine

/-- The outcome is a next state in canonical form whose architectural record and result are the pseudocode's answer. -/
def Refines (o : Host.Outcome State Fault Refusal) (answer : Arch × StepReply) : Prop :=
  ∃ t, o = .next t ∧ t.mem.wf ∧ (t.arch, t.status.reply) = answer

@[simp] theorem arch_acc (s : State) : s.arch.acc = s.acc := rfl
@[simp] theorem arch_pc (s : State) : s.arch.pc = s.pc := rfl
@[simp] theorem arch_z (s : State) : s.arch.z = s.z := rfl
@[simp] theorem arch_mem (s : State) (a : Byte) : s.arch.mem a = s.mem.readWord a.toNat := rfl
@[simp] theorem arch_status (s : State) : s.arch.status = s.status := rfl

/-- The array index of an address inside memory is that address. -/
theorem toNat_setWidth_byte {a : Word} (ha : a.toNat < Config.memWords) : (a.setWidth 8 : Byte).toNat = a.toNat := by
  rw [BitVec.toNat_setWidth]
  exact Nat.mod_eq_of_lt ha

/-- A word written to the machine's memory is one element of the array replaced. -/
theorem arch_mem_writeWord {s : State} (h : s.mem.rising) (x : Byte) (w : Word) :
    (fun b : Byte => (s.mem.writeWord x.toNat w).readWord b.toNat) = Function.update s.arch.mem x w := by
  funext b
  rw [Memory.readWord_writeWord h, Function.update_apply, arch_mem]
  exact if_congr BitVec.toNat_inj rfl rfl

theorem refines_fault {s : State} (hwf : s.mem.wf) (r : Fault) : Refines (.next (s.takeFault r)) (s.arch.fault r) :=
  ⟨_, rfl, hwf, rfl⟩

/-- A commit that neither writes memory nor halts. -/
theorem refines_commit {s : State} (hwf : s.mem.wf) (acc : Word) (z : Bool) (pc : Word) :
    Refines (.next (s.commit ⟨acc, z, none, pc, false⟩)) (Arch.commit acc z s.arch.mem pc) :=
  ⟨_, rfl, hwf, rfl⟩

/-- The commit of a store to the cell of the array that its address names. -/
theorem refines_store {s : State} (hwf : s.mem.wf) {a : Word} {x : Byte} (hx : x.toNat = a.toNat) (w : Word) :
    Refines (.next (s.commit { s.pending with write := some (a, w) }))
      (Arch.commit s.acc s.z (Function.update s.arch.mem x w) (s.pc + 1)) := by
  refine ⟨_, rfl, Memory.wf_writeWord hwf (hx ▸ x.isLt) w, ?_⟩
  rw [← arch_mem_writeWord hwf.1, hx]
  rfl

/-- The two bounds tests agree: inside memory both sides go on, outside both take the fault. -/
theorem refines_guarded {s : State} (hwf : s.mem.wf) {p : Word} {o : Host.Outcome State Fault Refusal}
    {answer : Arch × StepReply} (inside : p.toNat < Config.memWords → Refines o answer) :
    Refines (if inMemory p then o else .next (s.takeFault .outOfBounds))
      (if 0x100 ≤ p.toNat then s.arch.fault .outOfBounds else answer) := by
  rcases Nat.lt_or_ge p.toNat 0x100 with hp | hp
  · rw [if_pos ((inMemory_iff p).2 hp), if_neg (Nat.not_le.2 hp)]
    exact inside hp
  · rw [if_neg (Bool.eq_false_iff.1 ((inMemory_false_iff p).2 hp)), if_pos hp]
    exact refines_fault hwf .outOfBounds

/-- The execute phase, form by form. -/
theorem refines_exec {s : State} (hwf : s.mem.wf) (f : Form) (x : Byte) :
    Refines (exec (f.instr x) s) (s.arch.execute f x) := by
  rw [exec_eq]
  cases f with
  | loadImm | loadDir | addImm | addDir | cmpImm | cmpDir | breq | jump => exact refines_commit hwf _ _ _
  | storDir => exact refines_store hwf (zext16_toNat x).symm _
  | halt => exact ⟨_, rfl, hwf, rfl⟩
  | loadInd =>
    refine refines_guarded hwf fun hp => ?_
    rw [arch_mem, arch_mem, toNat_setWidth_byte hp]
    exact refines_commit hwf _ _ _
  | storInd => exact refines_guarded hwf fun hp => refines_store hwf (toNat_setWidth_byte hp) _

/-! ### The pseudocode's step, one equation for each of its ends -/

theorem archStep_terminal (m : OpMap) {a : Arch} (h : a.status.terminal = true) : a.step m = (a, a.status.reply) := by
  cases hs : a.status with
  | ready | running => rw [hs] at h; exact nomatch h
  | halted | faulted => simp only [Arch.step, hs, Status.reply]

/-- A live status is one of the two from which the pseudocode goes on to fetch (R49, R58). -/
theorem terminal_eq_false_iff (st : Status) : st.terminal = false ↔ st = .ready ∨ st = .running := by
  cases st <;> simp [Status.terminal]

theorem archStep_fetchFault (m : OpMap) {a : Arch} (h : a.status.terminal = false) (hpc : 0x100 ≤ a.pc.toNat) :
    a.step m = a.fault .outOfBounds := by
  rcases (terminal_eq_false_iff _).1 h with hs | hs <;> simp only [Arch.step, hs, if_pos hpc]

theorem archStep_invalid {m : OpMap} {a : Arch} (h : a.status.terminal = false) (hpc : a.pc.toNat < 0x100)
    (hm : m (opcodeOf (a.mem (a.pc.setWidth 8))) (modeOf (a.mem (a.pc.setWidth 8))) = none) :
    a.step m = a.fault .invalidOpcode := by
  rcases (terminal_eq_false_iff _).1 h with hs | hs <;> simp only [Arch.step, hs, if_neg (Nat.not_le.2 hpc), hm]

theorem archStep_execute {m : OpMap} {a : Arch} (h : a.status.terminal = false) (hpc : a.pc.toNat < 0x100)
    {f : Form} (hm : m (opcodeOf (a.mem (a.pc.setWidth 8))) (modeOf (a.mem (a.pc.setWidth 8))) = some f) :
    a.step m = a.execute f (operandOf (a.mem (a.pc.setWidth 8))) := by
  rcases (terminal_eq_false_iff _).1 h with hs | hs <;> simp only [Arch.step, hs, if_neg (Nat.not_le.2 hpc), hm]

/-- The word the pseudocode fetches is the word in the machine's cell. -/
theorem arch_fetchedWord {s : State} (hpc : inMemory s.pc = true) :
    s.arch.mem (s.arch.pc.setWidth 8) = s.mem.readWord s.pc.toNat := by
  rw [arch_mem, arch_pc, toNat_setWidth_byte ((inMemory_iff _).1 hpc)]

theorem refines_stepWith (m : OpMap) {s : State} (hwf : s.mem.wf) : Refines (stepWith m s) (s.arch.step m) := by
  rcases stepWith_cases m s with ⟨ht, hstep⟩ | ⟨ht, hpc, -, hstep⟩ | ⟨e, ht, hpc, -, hdec, hstep⟩ |
      ⟨i, ht, hpc, -, hdec, hstep⟩
  · rw [hstep, archStep_terminal m ht]
    exact ⟨s, rfl, hwf, rfl⟩
  · rw [hstep, archStep_fetchFault m ht ((inMemory_false_iff _).1 hpc)]
    exact refines_fault hwf _
  · rcases decodeWith_cases m (s.mem.readWord s.pc.toNat) with ⟨f, -, hok⟩ | ⟨hm, -⟩
    · exact nomatch hok.symm.trans hdec
    · rw [hstep, archStep_invalid ht ((inMemory_iff _).1 hpc) (by rwa [arch_fetchedWord hpc])]
      exact refines_fault hwf _
  · rcases decodeWith_cases m (s.mem.readWord s.pc.toNat) with ⟨f, hm, hok⟩ | ⟨-, herr⟩
    · obtain rfl := Except.ok.inj (hok.symm.trans hdec)
      rw [hstep, archStep_execute ht ((inMemory_iff _).1 hpc) (by rwa [arch_fetchedWord hpc]), arch_fetchedWord hpc]
      exact refines_exec hwf f _
    · exact nomatch herr.symm.trans hdec

/-- Settles O30: the four ends of a step (`stepWith_cases`), each against the pseudocode's line for it. -/
theorem stepRefinesThePseudocode : Obligations.StepRefinesThePseudocode :=
  fun m _ hwf => refines_stepWith m hwf

end Sys2Proof.Machine
end

section
/-! PROOF. The field split of a word (spec 30_encoding.md R35, R37): the word of its own three fields is the word again, and a
word's value is its fields at the weights of their bit positions. What a lawful map fixes (R41), for the decoder. -/

namespace Sys2Proof

theorem wordOf_fields (w : Word) : wordOf (opcodeOf w) (modeOf w) (operandOf w) = w := by
  ext i hi
  rw [← BitVec.getLsbD_eq_getElem, getLsbD_wordOf, ← BitVec.getLsbD_eq_getElem]
  simp only [opcodeOf, modeOf, operandOf, BitVec.getLsbD_extractLsb']
  split
  · next hlow => simp [hlow]
  · next hlow =>
    split
    · next hmid => simp [hmid, show 8 + (i - 8) = i by omega]
    · next hmid => simp [show i - 8 - 4 < 4 by omega, show 12 + (i - 8 - 4) = i by omega]

theorem wordOf_toNat (o md : Nibble) (x : Byte) : (wordOf o md x).toNat = o.toNat * 4096 + md.toNat * 256 + x.toNat := by
  have hshift : (wordOf o md x).toNat = (o.toNat <<< 4 ||| md.toNat) <<< 8 ||| x.toNat := by
    show BitVec.toNat (w := 4 + 4 + 8) (o ++ md ++ x) = _
    rw [BitVec.toNat_append, BitVec.toNat_append]
  rw [hshift, ← Nat.shiftLeft_add_eq_or_of_lt md.isLt, ← Nat.shiftLeft_add_eq_or_of_lt x.isLt, Nat.shiftLeft_eq,
    Nat.shiftLeft_eq]
  omega

/-- Settles O18: the fields of `wordOf` are its arguments, `wordOf_fields` is the converse. -/
theorem wordSplitsIntoExactlyOneTriple : Obligations.WordSplitsIntoExactlyOneTriple := by
  intro w o md x
  refine ⟨⟨?_, ?_⟩, wordOf_toNat o md x⟩
  · rintro rfl
    exact ⟨(opcodeOf_wordOf o md x).symm, (modeOf_wordOf o md x).symm, (operandOf_wordOf o md x).symm⟩
  · rintro ⟨rfl, rfl, rfl⟩
    exact (wordOf_fields w).symm

/-- The three clauses of R41: the two high bytes it fixes, and an encoding for every form. -/
theorem OpMap.lawful_iff (m : OpMap) :
    m.lawful = true ↔ m 0x1 0x0 = some .loadImm ∧ m 0x1 0x2 = some .storDir ∧ ∀ f, m.names f = true := by
  simp [OpMap.lawful, Form.mem_all, and_assoc]

/-- The decoder on a word whose high byte the map gives to a form. -/
theorem decodeWith_wordOf_of_mapped {m : OpMap} {o md : Nibble} {f : Form} (h : m o md = some f) (x : Byte) :
    decodeWith m (wordOf o md x) = .ok (f.instr x) := by
  rw [decodeWith_wordOf, h]

end Sys2Proof
end

section
/-! PROOF. LOAD immediate under every lawful map (spec 30_encoding.md R41; 41_load_store.md R60). -/

namespace Sys2Proof.Machine

/-- Settles O1: R41 fixes the high byte, and the meaning is the commit of a zero-extended byte. -/
theorem loadImmediateZeroExtendsIntoAcc : Obligations.LoadImmediateZeroExtendsIntoAcc := by
  refine ⟨fun m hm x => ?_, fun x s _ => ?_⟩
  · obtain ⟨hload, -, -⟩ := (OpMap.lawful_iff m).1 hm
    exact decodeWith_wordOf_of_mapped hload x
  · rw [exec_eq]
    rfl

end Sys2Proof.Machine
end

section
/-! PROOF. A taken transfer of control (spec 43_control.md R72): where it lands, what the next step fetches there, and how
that step ends when the word is invalid. -/

namespace Sys2Proof.Machine

/-- The state after a transfer to the target `x`: the `PC` at the zero-extended byte, `STATUS` Running, the rest as before. -/
def State.landedAt (s : State) (x : Byte) : State := { s with pc := zext16 x, status := .running }

@[simp] theorem landedAt_pc (s : State) (x : Byte) : (s.landedAt x).pc = zext16 x := rfl
@[simp] theorem landedAt_mem (s : State) (x : Byte) : (s.landedAt x).mem = s.mem := rfl
@[simp] theorem landedAt_status (s : State) (x : Byte) : (s.landedAt x).status = .running := rfl

theorem exec_jump (x : Byte) (s : State) : exec (.jump x) s = .next (s.landedAt x) := by
  rw [exec_eq]
  rfl

theorem exec_breq_taken (x : Byte) {s : State} (hz : s.z = true) : exec (.breq x) s = .next (s.landedAt x) := by
  simp only [exec_eq, if_pos hz]
  rfl

/-- A fetch with the `PC` inside memory answers the cell at `PC`. -/
theorem fetch_inside {s : State} (hpc : s.pc.toNat < Config.memWords) : s.fetch = .ok (s.mem.readWord s.pc.toNat) :=
  memRead_inside hpc s

theorem fetch_landedAt (s : State) (x : Byte) : (s.landedAt x).fetch = .ok (s.mem.readWord x.toNat) := by
  have hpc : (s.landedAt x).pc.toNat = x.toNat := by rw [landedAt_pc, zext16_toNat]
  rw [fetch_inside (hpc ▸ x.isLt), hpc, landedAt_mem]

/-- A live step whose fetched word does not decode takes the InvalidOpcode fault (R51, R54). -/
theorem stepWith_of_invalid_word {m : OpMap} {s : State} {w : Word} {e : DecodeReject}
    (hlive : s.status.terminal = false) (hfetch : s.fetch = .ok w) (hdec : decodeWith m w = .error e) :
    stepWith m s = .next (s.takeFault .invalidOpcode) := by
  rcases stepWith_cases m s with ⟨ht, -⟩ | ⟨-, -, hf, -⟩ | ⟨-, -, -, -, -, hstep⟩ | ⟨i, -, -, hf, hd, -⟩
  · exact nomatch hlive.symm.trans ht
  · exact nomatch hfetch.symm.trans hf
  · exact hstep
  · rw [← Except.ok.inj (hfetch.symm.trans hf)] at hd
    exact nomatch hdec.symm.trans hd

/-- Settles O13: both transfers land in `landedAt`, whose `PC` names a cell because its target is a zero-extended byte, and
from there `stepWith_of_invalid_word` gives the next step. -/
theorem controlTransferLandsOnAbsoluteTarget : Obligations.ControlTransferLandsOnAbsoluteTarget := by
  intro m i x s _ hi
  have hexec : exec i s = .next (s.landedAt x) := by
    rcases hi with rfl | ⟨rfl, hz⟩
    · exact exec_jump x s
    · exact exec_breq_taken x hz
  have hlive : (s.landedAt x).status.terminal = false := by rw [landedAt_status, Status.terminal]
  exact ⟨s.landedAt x, hexec, rfl, zext16_toNat x, fetch_landedAt s x,
    fun _ hdec => stepWith_of_invalid_word hlive (fetch_landedAt s x) hdec⟩

end Sys2Proof.Machine
end

section
/-! PROOF. Decode against encode under every opcode map (spec 30_encoding.md R44, R45; D1): a word that the encoder finds has a
high byte which the map gives to the instruction's form, and the fields of `wordOf` bring both parts back. -/

namespace Sys2Proof

/-- The words the encoder answers: a high byte that names the instruction's form, with its operand byte. -/
theorem encodeWith_eq_some {m : OpMap} {i : Instr} {w : Word} (h : encodeWith m i = some w) :
    ∃ o md, m o md = some i.form ∧ w = wordOf o md i.operand := by
  obtain ⟨p, hfind, rfl⟩ := Option.map_eq_some_iff.1 h
  exact ⟨p.1, p.2, by simpa using List.find?_some hfind, rfl⟩

theorem decodeWith_of_encodeWith {m : OpMap} {i : Instr} {w : Word} (h : encodeWith m i = some w) :
    decodeWith m w = .ok i := by
  obtain ⟨o, md, hm, rfl⟩ := encodeWith_eq_some h
  rw [decodeWith_wordOf_of_mapped hm, Instr.form_instr]

theorem exists_encodeWith_of_wellFormed {m : OpMap} {i : Instr} (h : i.wellFormed m = true) :
    ∃ w, encodeWith m i = some w := by
  obtain ⟨p, hp⟩ := Option.isSome_iff_exists.1 (List.find?_isSome.2 (List.any_eq_true.1 h))
  exact ⟨_, Option.map_eq_some_iff.2 ⟨p, hp, rfl⟩⟩

/-- Settles O23: the encoder finds a word where the map names the form, and what it finds decodes back; a lawful map names
every form. -/
theorem decodeInvertsEncodeUnderEveryMap : Obligations.DecodeInvertsEncodeUnderEveryMap := by
  intro m i
  refine ⟨fun hwf => ?_, fun hm => ?_⟩
  · obtain ⟨w, hw⟩ := exists_encodeWith_of_wellFormed hwf
    exact ⟨w, hw, decodeWith_of_encodeWith hw⟩
  · obtain ⟨-, -, hnames⟩ := (OpMap.lawful_iff m).1 hm
    exact hnames i.form

end Sys2Proof
end

section
/-! PROOF. The reference opcode map (spec 30_encoding.md R40 to R43; D1 to D3): it gives each form exactly one high byte, so its
encoder has one word to find, and its decoder forgets nothing but HALT's operand byte. -/

namespace Sys2Proof

/-- The one high byte of a form in the table of R40. -/
def Form.refHighByte : Form → Nibble × Nibble
  | .loadImm => (0x1, 0x0)
  | .loadDir => (0x1, 0x1)
  | .loadInd => (0x1, 0x5)
  | .storDir => (0x1, 0x2)
  | .storInd => (0x1, 0x6)
  | .addImm => (0x2, 0x0)
  | .addDir => (0x2, 0x1)
  | .cmpImm => (0x3, 0x0)
  | .cmpDir => (0x3, 0x1)
  | .breq => (0x4, 0x1)
  | .jump => (0x5, 0x1)
  | .halt => (0xF, 0x0)

/-- The reference map gives a form its high byte and no other. -/
theorem refOpmap_eq_some_iff (o md : Nibble) (f : Form) : refOpmap o md = some f ↔ (o, md) = f.refHighByte := by
  have hrows : ∀ r ∈ opTable, (r.opcode, r.mode) = r.form.refHighByte := by decide
  constructor
  · intro h
    obtain ⟨r, hfind, rfl⟩ := Option.map_eq_some_iff.1 h
    rw [← hrows r (List.mem_of_find?_eq_some hfind)]
    have hmatch := List.find?_some hfind
    simp only [Bool.and_eq_true, beq_iff_eq] at hmatch
    rw [hmatch.1, hmatch.2]
  · intro h
    obtain ⟨rfl, rfl⟩ := Prod.mk.inj h
    cases f <;> rfl

theorem refOpmap_refHighByte (f : Form) : refOpmap f.refHighByte.1 f.refHighByte.2 = some f :=
  (refOpmap_eq_some_iff _ _ f).2 rfl

theorem wellFormed_refOpmap (i : Instr) : i.wellFormed refOpmap = true :=
  (OpMap.names_iff _ _).2 ⟨_, _, refOpmap_refHighByte i.form⟩

theorem encode_eq_wordOf (i : Instr) :
    encode i = wordOf i.form.refHighByte.1 i.form.refHighByte.2 i.operand := by
  cases i <;> rfl

/-- The decoder on the reference word of a form. -/
theorem decode_refWord (f : Form) (x : Byte) :
    decode (wordOf f.refHighByte.1 f.refHighByte.2 x) = .ok (f.instr x) :=
  decodeWith_wordOf_of_mapped (refOpmap_refHighByte f) x

theorem encodeWith_refOpmap (i : Instr) : encodeWith refOpmap i = some (encode i) := by
  obtain ⟨w, hw⟩ := exists_encodeWith_of_wellFormed (wellFormed_refOpmap i)
  obtain ⟨o, md, hm, rfl⟩ := encodeWith_eq_some hw
  rw [hw, encode_eq_wordOf, ← (refOpmap_eq_some_iff o md _).1 hm]

theorem Form.operand_instr {f : Form} (h : f ≠ .halt) (x : Byte) : (f.instr x).operand = x := by
  cases f with
  | halt => exact absurd rfl h
  | _ => rfl

/-- What a word that decodes says of itself: its high byte is that of the form it decodes to. -/
theorem decode_eq_ok {w : Word} {i : Instr} (h : decode w = .ok i) :
    ∃ f : Form, i = f.instr (operandOf w) ∧ w = wordOf f.refHighByte.1 f.refHighByte.2 (operandOf w) := by
  rcases decodeWith_cases refOpmap w with ⟨f, hm, hok⟩ | ⟨-, herr⟩
  · refine ⟨f, Except.ok.inj (h.symm.trans hok), ?_⟩
    rw [← (refOpmap_eq_some_iff _ _ f).1 hm]
    exact (wordOf_fields w).symm
  · exact nomatch h.symm.trans herr

theorem wordOf_and (o o' md md' : Nibble) (x x' : Byte) :
    wordOf o md x &&& wordOf o' md' x' = wordOf (o &&& o') (md &&& md') (x &&& x') := by
  show (BitVec.append (n := 8) (m := 8) _ _ &&& _ : BitVec (4 + 4 + 8)) = _
  exact BitVec.and_append.trans (congrArg (· ++ _) BitVec.and_append)

theorem wordOf_clear_operand (o md : Nibble) (x : Byte) : wordOf o md x &&& 0xFF00 = wordOf o md 0x00 := by
  have hmask : (0xFF00 : Word) = wordOf (BitVec.allOnes 4) (BitVec.allOnes 4) 0x00 := by decide
  rw [hmask, wordOf_and, BitVec.and_allOnes, BitVec.and_allOnes]
  exact congrArg (wordOf o md) BitVec.and_zero

/-- Settles O24: each form has one high byte, so the encoder's word is the table's; a word that decodes is rebuilt from its
fields, and only HALT loses one. -/
theorem referenceEncodingIsExact : Obligations.ReferenceEncodingIsExact := by
  refine ⟨fun i => ⟨decodeWith_of_encodeWith (encodeWith_refOpmap i), encodeWith_refOpmap i⟩, fun w i h => ?_⟩
  obtain ⟨f, rfl, hw⟩ := decode_eq_ok h
  rw [encode_eq_wordOf, Form.instr_form]
  by_cases hf : f = .halt
  · subst hf
    refine .inr ⟨rfl, ?_⟩
    rw [hw, wordOf_clear_operand]
    rfl
  · rw [Form.operand_instr hf]
    exact .inl hw.symm

/-- Settles O9: four rows of the table. -/
theorem aluWordsDecodeUnderReferenceMap : Obligations.AluWordsDecodeUnderReferenceMap :=
  fun x => ⟨decode_refWord .addImm x, decode_refWord .addDir x, decode_refWord .cmpImm x, decode_refWord .cmpDir x⟩

/-- A word whose value lies in a high byte's 256 has that high byte. -/
theorem eq_wordOf_of_toNat {w : Word} {o md : Nibble} (hlow : (wordOf o md 0x00).toNat ≤ w.toNat)
    (hhigh : w.toNat ≤ (wordOf o md 0xFF).toNat) : w = wordOf o md (operandOf w) := by
  have hw := congrArg BitVec.toNat (wordOf_fields w)
  rw [wordOf_toNat] at hw hlow hhigh
  have hbyte : (0xFF : Byte).toNat = 255 := rfl
  have hmd := md.isLt
  have hmode := (modeOf w).isLt
  have hoperand := (operandOf w).isLt
  have ho : opcodeOf w = o := BitVec.eq_of_toNat_eq (by omega)
  have hm : modeOf w = md := BitVec.eq_of_toNat_eq (by rw [ho] at hw; omega)
  rw [← ho, ← hm, wordOf_fields]

/-- Settles O20: the map is asked about the high byte only, and 0xF0 is HALT's. -/
theorem operandByteNeverDecidesTheForm : Obligations.OperandByteNeverDecidesTheForm := by
  refine ⟨fun m o md x y i h => ?_, fun w hlow hhigh => ?_⟩
  · cases hm : m o md with
    | none =>
      rw [decodeWith_wordOf, hm] at h
      exact nomatch h
    | some f =>
      rw [decodeWith_wordOf_of_mapped hm] at h
      obtain rfl := Except.ok.inj h
      exact ⟨_, decodeWith_wordOf_of_mapped hm y, by rw [Form.instr_form, Form.instr_form]⟩
  · rw [eq_wordOf_of_toNat (o := 0xF) (md := 0x0) hlow hhigh]
    exact decode_refWord .halt _

/-- Settles O21: the two high bytes R41 fixes are rows, every form has its row, and the rest counts the table. -/
theorem referenceMapIsLawfulAndUnambiguous : Obligations.ReferenceMapIsLawfulAndUnambiguous := by
  refine ⟨(OpMap.lawful_iff _).2 ⟨refOpmap_refHighByte .loadImm, refOpmap_refHighByte .storDir, fun f => ?_⟩, ?_, ?_⟩
  · exact (OpMap.names_iff _ _).2 ⟨_, _, refOpmap_refHighByte f⟩
  · decide
  · decide +kernel

/-- Settles O22: ten words built from their rows, and two high bytes that no row has. -/
theorem writtenWordsDecode : Obligations.WrittenWordsDecode :=
  ⟨decode_refWord .loadImm 0x80, decode_refWord .storDir 0x9F, decode_refWord .loadImm 0x01, decode_refWord .storDir 0x90,
    decode_refWord .loadInd 0x9F, decode_refWord .addDir 0x91, decode_refWord .cmpImm 0x90, decode_refWord .breq 0x13,
    decode_refWord .jump 0x05, decode_refWord .halt 0xAB, by decide, by decide⟩

end Sys2Proof

namespace Sys2Proof.Machine

/-- Settles O19: the two answers of the decoder, and the fault of a live step that fetches a word with the second. -/
theorem decodeFollowsMapAndInvalidWordFaults : Obligations.DecodeFollowsMapAndInvalidWordFaults := by
  intro m w
  rcases decodeWith_cases m w with ⟨f, hm, hok⟩ | ⟨hm, herr⟩
  · refine ⟨fun g hg => ?_, fun hnone => nomatch hm.symm.trans hnone⟩
    obtain rfl := Option.some.inj (hm.symm.trans hg)
    exact ⟨hok, Form.mem_all f⟩
  · exact ⟨fun g hg => (nomatch hm.symm.trans hg),
      fun _ => ⟨⟨_, herr⟩, fun s hlive hfetch => stepWith_of_invalid_word hlive hfetch herr⟩⟩

end Sys2Proof.Machine
end

section
/-! PROOF. What each form does to a live state, as one equation for each (spec 41_load_store.md, 42_alu.md, 43_control.md): the
record it answers, with every field it keeps. -/

namespace Sys2Proof.Machine

/-- A store's next state: `ACC` in the cell `ea`, the `PC` advanced, STATUS Running, the rest as before (R63, R64). -/
def State.storedAt (s : State) (ea : Word) : State :=
  { s with mem := s.mem.writeWord ea.toNat s.acc, pc := s.pc + 1, status := .running }

@[simp] theorem storedAt_pc (s : State) (ea : Word) : (s.storedAt ea).pc = s.pc + 1 := rfl
@[simp] theorem storedAt_mem (s : State) (ea : Word) : (s.storedAt ea).mem = s.mem.writeWord ea.toNat s.acc := rfl
@[simp] theorem storedAt_status (s : State) (ea : Word) : (s.storedAt ea).status = .running := rfl

/-- The cell a store names holds `ACC` after it. -/
theorem storedAt_readWord_same {s : State} (hwf : s.mem.wf) (ea : Word) :
    (s.storedAt ea).mem.readWord ea.toNat = s.acc := by
  rw [storedAt_mem, Memory.readWord_writeWord hwf.1, if_pos rfl]

/-- Every word a store does not name is as before. -/
theorem storedAt_readWord_other {s : State} (hwf : s.mem.wf) {ea : Word} {a : Nat} (ha : a ≠ ea.toNat) :
    (s.storedAt ea).mem.readWord a = s.mem.readWord a := by
  rw [storedAt_mem, Memory.readWord_writeWord hwf.1, if_neg ha]

/-- Every byte outside the two of the cell that a store names is as before. -/
theorem storedAt_readByte_other {s : State} (hwf : s.mem.wf) {ea : Word} {b : Nat} (hhigh : b ≠ 2 * ea.toNat)
    (hlow : b ≠ 2 * ea.toNat + 1) : (s.storedAt ea).mem.readByte b = s.mem.readByte b := by
  rw [storedAt_mem, Memory.readByte_writeWord hwf.1, if_neg hlow, if_neg hhigh]

/-- A comparison's next state: `Z` set, the `PC` advanced, STATUS Running, the rest as before (R68). -/
def State.comparedWith (s : State) (v : Word) : State :=
  { s with z := decide (s.acc = v), pc := s.pc + 1, status := .running }

@[simp] theorem comparedWith_pc (s : State) (v : Word) : (s.comparedWith v).pc = s.pc + 1 := rfl
@[simp] theorem comparedWith_z (s : State) (v : Word) : (s.comparedWith v).z = decide (s.acc = v) := rfl
@[simp] theorem comparedWith_mem (s : State) (v : Word) : (s.comparedWith v).mem = s.mem := rfl
@[simp] theorem comparedWith_status (s : State) (v : Word) : (s.comparedWith v).status = .running := rfl

theorem exec_loadDir (x : Byte) (s : State) :
    exec (.loadDir x) s = .next { s with acc := s.mem.readWord x.toNat, pc := s.pc + 1, status := .running } := by
  rw [exec_eq]
  rfl

theorem exec_loadInd_inside {x : Byte} {s : State} (hp : inMemory (s.mem.readWord x.toNat) = true) :
    exec (.loadInd x) s = .next
      { s with acc := s.mem.readWord (s.mem.readWord x.toNat).toNat, pc := s.pc + 1, status := .running } := by
  rw [exec_eq]
  exact if_pos hp

theorem exec_loadInd_outside {x : Byte} {s : State} (hp : inMemory (s.mem.readWord x.toNat) = false) :
    exec (.loadInd x) s = .next (s.takeFault .outOfBounds) := by
  rw [exec_eq]
  exact if_neg (Bool.eq_false_iff.1 hp)

theorem exec_storDir (x : Byte) (s : State) : exec (.storDir x) s = .next (s.storedAt (directAddr x)) := by
  rw [exec_eq]
  rfl

theorem exec_storInd_inside {x : Byte} {s : State} (hp : inMemory (s.mem.readWord x.toNat) = true) :
    exec (.storInd x) s = .next (s.storedAt (s.mem.readWord x.toNat)) := by
  rw [exec_eq]
  exact if_pos hp

theorem exec_storInd_outside {x : Byte} {s : State} (hp : inMemory (s.mem.readWord x.toNat) = false) :
    exec (.storInd x) s = .next (s.takeFault .outOfBounds) := by
  rw [exec_eq]
  exact if_neg (Bool.eq_false_iff.1 hp)

theorem exec_addImm (x : Byte) (s : State) :
    exec (.addImm x) s = .next { s with acc := addWords s.acc (zext16 x), pc := s.pc + 1, status := .running } := by
  rw [exec_eq, addWords_eq]
  rfl

theorem exec_addDir (x : Byte) (s : State) :
    exec (.addDir x) s =
      .next { s with acc := addWords s.acc (s.mem.readWord x.toNat), pc := s.pc + 1, status := .running } := by
  rw [exec_eq, addWords_eq]
  rfl

theorem exec_cmpImm (x : Byte) (s : State) : exec (.cmpImm x) s = .next (s.comparedWith (zext16 x)) := by
  rw [exec_eq]
  rfl

theorem exec_cmpDir (x : Byte) (s : State) : exec (.cmpDir x) s = .next (s.comparedWith (s.mem.readWord x.toNat)) := by
  rw [exec_eq]
  rfl

theorem exec_breq (x : Byte) (s : State) :
    exec (.breq x) s = .next { s with pc := if s.z = true then zext16 x else s.pc + 1, status := .running } := by
  rw [exec_eq]
  rfl

theorem exec_halt (s : State) : exec .halt s = .next { s with status := .halted } := by
  rw [exec_eq]
  rfl

end Sys2Proof.Machine
end

section
/-! PROOF. The instructions one by one: the row of the reference map, or the high byte that R41 fixes, and the equation of the
form's execution. -/

namespace Sys2Proof.Machine

/-- Settles O2. -/
theorem loadDirectCopiesCellIntoAcc : Obligations.LoadDirectCopiesCellIntoAcc :=
  ⟨decode_refWord .loadDir, fun x s _ => exec_loadDir x s⟩

/-- Settles O3. -/
theorem loadIndirectCopiesPointedCellIntoAcc : Obligations.LoadIndirectCopiesPointedCellIntoAcc :=
  ⟨decode_refWord .loadInd, fun _ _ _ hp => exec_loadInd_inside ((inMemory_iff _).2 hp)⟩

/-- Settles O4: R41 fixes the high byte, and the effects are those of a store at the direct address. -/
theorem storDirectReplacesCell : Obligations.StorDirectReplacesCell := by
  refine ⟨fun m hm x => ?_, fun x s _ hwf => ?_⟩
  · obtain ⟨-, hstor, -⟩ := (OpMap.lawful_iff m).1 hm
    exact decodeWith_wordOf_of_mapped hstor x
  · exact ⟨_, exec_storDir x s, rfl, storedAt_readWord_same hwf _, fun _ => storedAt_readByte_other hwf⟩

/-- Settles O5: a store at the pointer; the pointer cell is another cell unless it names itself. -/
theorem storIndirectReplacesPointedCell : Obligations.StorIndirectReplacesPointedCell := by
  refine ⟨decode_refWord .storInd, fun x s ea _ hwf hptr hea => ?_⟩
  obtain rfl := Except.ok.inj ((indirectAddr_eq s x).symm.trans hptr)
  refine ⟨_, exec_storInd_inside ((inMemory_iff _).2 hea), rfl, storedAt_readWord_same hwf _,
    fun _ => storedAt_readByte_other hwf, fun hne => storedAt_readWord_other hwf fun hself => hne ?_⟩
  exact BitVec.eq_of_toNat_eq (hself.symm.trans (zext16_toNat x).symm)

/-- Settles O6. -/
theorem indirectPointerOutsideMemoryFaults : Obligations.IndirectPointerOutsideMemoryFaults := by
  intro x s _ hp
  have hout := (inMemory_false_iff _).2 hp
  exact ⟨exec_loadInd_outside hout, exec_storInd_outside hout⟩

theorem addWords_comm (a b : Word) : addWords a b = addWords b a := by
  rw [addWords_eq, addWords_eq, BitVec.add_comm]

theorem addWords_zero (a : Word) : addWords a 0 = a := by
  rw [addWords_eq]
  exact BitVec.add_zero a

/-- Settles O7: the sums are those of `addWords`, the immediate's at the value of its zero-extended byte. -/
theorem addIsSilentModularAddition : Obligations.AddIsSilentModularAddition := by
  refine ⟨fun x s _ => ?_, fun x s _ => exec_addDir x s, fun a => ⟨addWords_zero a, ?_⟩, addWords_comm⟩
  · rw [exec_addImm, addWords, zext16_toNat]
  · rw [addWords_comm, addWords_zero]

/-- Settles O8. -/
theorem compareWritesOnlyTheEqualFlag : Obligations.CompareWritesOnlyTheEqualFlag :=
  ⟨fun x s _ => exec_cmpImm x s, fun x s _ => exec_cmpDir x s⟩

/-- Settles O10. -/
theorem branchIfEqualFollowsFlag : Obligations.BranchIfEqualFollowsFlag :=
  ⟨decode_refWord .breq, fun x s _ => exec_breq x s⟩

/-- Settles O11. -/
theorem jumpGoesToTarget : Obligations.JumpGoesToTarget :=
  ⟨decode_refWord .jump, fun x s _ => exec_jump x s⟩

/-- Settles O12. -/
theorem haltChangesOnlyStatus : Obligations.HaltChangesOnlyStatus :=
  ⟨decode_refWord .halt, fun s _ => exec_halt s⟩

end Sys2Proof.Machine
end

section
/-! PROOF. The read columns of the access matrix (spec 10_state.md R19): an instruction run with another `ACC`, or another `Z`,
does the same where its column says that it does not read it. -/

namespace Sys2Proof.Machine

/-- Settles O16: no transfer of control mentions `ACC`; a LOAD replaces it, at an address that does not depend on it. -/
theorem accUnreadByControlAndLoad : Obligations.AccUnreadByControlAndLoad := by
  intro i s t v h
  refine ⟨fun hcontrol => ?_, fun hload hrun => ?_⟩
  · cases i with
    | breq | jump | halt =>
      rw [exec_eq] at h ⊢
      obtain rfl := Host.Outcome.next.inj h
      rfl
    | _ => exact absurd hcontrol (by simp [Instr.form])
  · cases i with
    | loadImm | loadDir =>
      rw [exec_eq] at h ⊢
      obtain rfl := Host.Outcome.next.inj h
      rfl
    | loadInd x =>
      cases hp : inMemory (s.mem.readWord x.toNat) with
      | true =>
        obtain rfl := Host.Outcome.next.inj ((exec_loadInd_inside hp).symm.trans h)
        exact exec_loadInd_inside hp
      | false =>
        obtain rfl := Host.Outcome.next.inj ((exec_loadInd_outside hp).symm.trans h)
        exact nomatch hrun
    | _ => exact absurd hload (by simp [Instr.form])

/-- Settles O17: `Z` is in no meaning but BREQ's; CMP replaces it, the others carry it along, into a fault as into a commit. -/
theorem flagReadOnlyByBranch : Obligations.FlagReadOnlyByBranch := by
  intro i s t b h hbranch
  cases i with
  | breq => exact absurd rfl hbranch
  | loadImm | loadDir | storDir | addImm | addDir | cmpImm | cmpDir | jump | halt =>
    rw [exec_eq] at h ⊢
    obtain rfl := Host.Outcome.next.inj h
    rfl
  | loadInd x =>
    cases hp : inMemory (s.mem.readWord x.toNat) with
    | true =>
      obtain rfl := Host.Outcome.next.inj ((exec_loadInd_inside hp).symm.trans h)
      exact exec_loadInd_inside hp
    | false =>
      obtain rfl := Host.Outcome.next.inj ((exec_loadInd_outside hp).symm.trans h)
      exact exec_loadInd_outside hp
  | storInd x =>
    cases hp : inMemory (s.mem.readWord x.toNat) with
    | true =>
      obtain rfl := Host.Outcome.next.inj ((exec_storInd_inside hp).symm.trans h)
      exact exec_storInd_inside hp
    | false =>
      obtain rfl := Host.Outcome.next.inj ((exec_storInd_outside hp).symm.trans h)
      exact exec_storInd_outside hp

end Sys2Proof.Machine
end

section
/-! PROOF. Memory as data (spec 20_memory.md R28; log entry 5): what a sequence of writes leaves in a cell, and that memories in
the canonical form are determined by their words. -/

namespace Sys2Proof.Machine

/-- Settles O26: the last of the writes is the first in reverse order, and each write decides its own cell only. -/
theorem cellHoldsLastWrite : Obligations.CellHoldsLastWrite := by
  intro m writes a hwf
  have hrising : m.rising := hwf.1
  clear hwf
  induction writes generalizing m with
  | nil => rfl
  | cons p rest ih =>
    rw [List.foldl_cons, ih _ (Memory.rising_writeWord hrising _ _), List.reverse_cons, List.find?_append,
      Memory.readWord_writeWord hrising]
    cases rest.reverse.find? (fun q => q.1 == a) with
    | some q => rfl
    | none =>
      by_cases ha : p.1 = a
      · simp [ha]
      · simp [ha, BitVec.toNat_inj, Ne.symm ha]

/-- A listed byte of a canonical memory does not read as an unlisted one. -/
theorem Memory.readByte_head_ne {c : Host.Cell} {m : Memory} (h : Memory.wf (c :: m)) :
    Memory.readByte (c :: m) c.1 ≠ Config.unlistedByte := by
  rw [Memory.readByte, if_pos rfl]
  exact (h.2 c List.mem_cons_self).2

/-- Below the first entry of a canonical memory every byte reads as an unlisted one. -/
theorem Memory.readByte_below_head {c : Host.Cell} {m : Memory} (h : Memory.wf (c :: m)) {a : Nat} (ha : a < c.1) :
    Memory.readByte (c :: m) a = Config.unlistedByte :=
  Memory.readByte_below <| List.forall_mem_cons.2
    ⟨ha, fun d hd => Nat.lt_trans ha ((List.pairwise_cons.1 h.1).1 d hd)⟩

/-- The rest of a canonical memory reads as the whole, but for the first entry's address. -/
theorem Memory.readByte_tail {c : Host.Cell} {m : Memory} (h : Memory.wf (c :: m)) (a : Nat) :
    Memory.readByte m a = if a = c.1 then Config.unlistedByte else Memory.readByte (c :: m) a := by
  split
  · next heq => exact Memory.readByte_below fun d hd => heq ▸ (List.pairwise_cons.1 h.1).1 d hd
  · next hne => rw [Memory.readByte, if_neg hne]

/-- Two canonical memories with the same bytes begin at the same address: at the lower of two first addresses one memory
would list a byte and the other none. -/
theorem Memory.head_le_of_readByte_eq {c d : Host.Cell} {m n : Memory} (hm : Memory.wf (c :: m)) (hn : Memory.wf (d :: n))
    (h : ∀ a, Memory.readByte (c :: m) a = Memory.readByte (d :: n) a) : d.1 ≤ c.1 :=
  Nat.not_lt.1 fun hlt => Memory.readByte_head_ne hm ((h c.1).trans (Memory.readByte_below_head hn hlt))

/-- Canonical memories that read the same at every byte address are the same list. -/
theorem Memory.ext_readByte {m n : Memory} (hm : m.wf) (hn : n.wf) (h : ∀ a, m.readByte a = n.readByte a) : m = n := by
  induction m generalizing n with
  | nil =>
    cases n with
    | nil => rfl
    | cons d n => exact absurd (h d.1).symm (Memory.readByte_head_ne hn)
  | cons c m ih =>
    cases n with
    | nil => exact absurd (h c.1) (Memory.readByte_head_ne hm)
    | cons d n =>
      have haddr : c.1 = d.1 :=
        Nat.le_antisymm (Memory.head_le_of_readByte_eq hn hm fun a => (h a).symm) (Memory.head_le_of_readByte_eq hm hn h)
      have hbyte : c.2 = d.2 := by
        have hc := h c.1
        rwa [Memory.readByte, if_pos rfl, Memory.readByte, if_pos haddr] at hc
      have htail : m = n := ih hm.tail hn.tail fun a => by
        rw [Memory.readByte_tail hm, Memory.readByte_tail hn, haddr, h a]
      rw [Prod.ext haddr hbyte, htail]

/-- Past the 512 bytes of memory a canonical memory lists nothing. -/
theorem Memory.readByte_past_end {m : Memory} (h : m.wf) {a : Nat} (ha : 2 * Config.memWords ≤ a) :
    m.readByte a = Config.unlistedByte := by
  induction m with
  | nil => rfl
  | cons c m ih =>
    have hc := (h.2 c List.mem_cons_self).1
    rw [Memory.readByte, if_neg (by omega)]
    exact ih h.tail

theorem readByte_high_of_readWord (m : Memory) (a : Nat) : m.readByte (2 * a) = (m.readWord a).extractLsb' 8 8 :=
  BitVec.extractLsb'_append_eq_left.symm

theorem readByte_low_of_readWord (m : Memory) (a : Nat) : m.readByte (2 * a + 1) = (m.readWord a).extractLsb' 0 8 :=
  BitVec.extractLsb'_append_eq_right.symm

/-- Settles O27: words give bytes, past the end there are none, and bytes give the list. -/
theorem canonicalMemoryIsItsWords : Obligations.CanonicalMemoryIsItsWords := by
  intro m n hm hn h
  refine Memory.ext_readByte hm hn fun b => ?_
  rcases Nat.lt_or_ge b (2 * Config.memWords) with hb | hb
  · have hword := h (b / 2) (Nat.div_lt_of_lt_mul hb)
    rcases Nat.even_or_odd' b with ⟨a, rfl | rfl⟩
    · rw [show 2 * a / 2 = a by omega] at hword
      rw [readByte_high_of_readWord, readByte_high_of_readWord, hword]
    · rw [show (2 * a + 1) / 2 = a by omega] at hword
      rw [readByte_low_of_readWord, readByte_low_of_readWord, hword]
  · rw [Memory.readByte_past_end hm hb, Memory.readByte_past_end hn hb]

theorem Memory.readWord_nil (a : Nat) : Memory.readWord [] a = 0x0000 := by
  rw [Memory.readWord, Memory.readByte, Memory.readByte]
  decide

/-- Settles O42: both memories are canonical and hold zero in every cell. -/
theorem resetIsConstructionAtNamedValues : Obligations.ResetIsConstructionAtNamedValues := by
  have hmem : [] = Memory.ofCells fun _ => 0x0000 := by
    refine canonicalMemoryIsItsWords _ _ Memory.wf_nil (Memory.wf_ofCells _) fun a ha => ?_
    have hread := Memory.readWord_ofCells (fun _ => 0x0000) (BitVec.ofNat 8 a)
    rw [BitVec.toNat_ofNat, Nat.mod_eq_of_lt ha] at hread
    rw [hread, Memory.readWord_nil]
  show State.mk 0x0000 0x0000 false [] .ready = State.mk 0x0000 0x0000 false (Memory.ofCells _) .ready
  rw [hmem]

end Sys2Proof.Machine
end

section
/-! PROOF. One step of a live machine (spec 40_execution_cycle.md R48 to R54), phase by phase: how it ends by what the fetch and
the decoder answer. -/

namespace Sys2Proof.Machine

theorem fetch_outside {s : State} (hpc : Config.memWords ≤ s.pc.toNat) : s.fetch = .error .outOfBounds :=
  memRead_outside hpc s

/-- A step of a live machine is the execution of the instruction it decodes, nothing before it and nothing after. -/
theorem stepWith_of_decoded {m : OpMap} {s : State} {w : Word} {i : Instr} (hlive : s.status.terminal = false)
    (hfetch : s.fetch = .ok w) (hdec : decodeWith m w = .ok i) : stepWith m s = exec i s := by
  simp only [stepWith, hlive, hfetch, hdec]
  rfl

theorem stepWith_of_fetch_error {m : OpMap} {s : State} {r : Fault} (hlive : s.status.terminal = false)
    (hfetch : s.fetch = .error r) : stepWith m s = .next (s.takeFault r) := by
  simp only [stepWith, hlive, hfetch]
  rfl

theorem stepWith_of_terminal (m : OpMap) {s : State} (h : s.status.terminal = true) : stepWith m s = .next s :=
  if_pos h

/-- Settles O29. -/
theorem stepRunsTheDecodedInstruction : Obligations.StepRunsTheDecodedInstruction :=
  fun _ _ _ hlive hfetch hdec _ => stepWith_of_decoded hlive hfetch hdec

/-- Settles O31: the two terminal statuses, and the two live ones. -/
theorem terminalStepIsANoop : Obligations.TerminalStepIsANoop := by
  refine ⟨fun m s hs => ⟨stepWith_of_terminal m ?_, ?_⟩, fun m s r hs => ⟨stepWith_of_terminal m ?_, ?_⟩,
    fun m s w i hs hfetch hdec => stepWith_of_decoded ((terminal_eq_false_iff _).2 hs) hfetch hdec⟩ <;> rw [hs] <;> rfl

/-- Settles O50: the placed word lies in the cell that the `PC` names, inside memory, and the machine is live. -/
theorem placedWordIsTheNextInstruction : Obligations.PlacedWordIsTheNextInstruction := by
  intro s w i hwf hdec
  have hpc : inMemory (s.withFetchWord 16 w).pc = true := by
    show inMemory (if inMemory s.pc then s.pc else Config.resetPc) = true
    split
    · assumption
    · decide
  have hlive : (s.withFetchWord 16 w).status.terminal = false := by
    show (if s.status.terminal then Status.ready else s.status).terminal = false
    split
    · rfl
    · next h => exact Bool.eq_false_iff.2 h
  have hfetch : (s.withFetchWord 16 w).fetch = .ok (tableWord 16 w) := by
    rw [fetch_inside ((inMemory_iff _).1 hpc)]
    exact congrArg Except.ok ((Memory.readWord_writeWord hwf.1 _ _ _).trans (if_pos rfl))
  have hok : decode (tableWord 16 w) = .ok i := by
    unfold decodeTableWord at hdec
    cases hd : decode (tableWord 16 w) with
    | ok j => rw [hd] at hdec; exact congrArg Except.ok (Option.some.inj hdec)
    | error e => rw [hd] at hdec; exact nomatch hdec
  exact stepWith_of_decoded hlive hfetch hok

/-- The next `PC` of an advance from below the last cell names the next cell. -/
theorem toNat_succ_of_lt {a : Word} (h : a.toNat + 1 < 2 ^ 16) : (a + 1).toNat = a.toNat + 1 := by
  rw [BitVec.toNat_add]
  exact Nat.mod_eq_of_lt h

/-- A store whose cell is the next one is fetched from there. -/
theorem fetch_storedAt_next {s : State} (hwf : s.mem.wf) {ea : Word} (hea : ea.toNat < Config.memWords)
    (hnext : ea.toNat = s.pc.toNat + 1) : (s.storedAt ea).fetch = .ok s.acc := by
  have hbound : Config.memWords = 256 := rfl
  have hpc : (s.storedAt ea).pc.toNat = ea.toNat := by
    rw [storedAt_pc, toNat_succ_of_lt (by omega), hnext]
  rw [fetch_inside (hpc ▸ hea), hpc, storedAt_readWord_same hwf]

/-- Settles O28: both forms answer the store at their address, and from there the fetch finds `ACC`. -/
theorem storedWordIsFetchedByNextStep : Obligations.StoredWordIsFetchedByNextStep := by
  intro m s w ea x i hlive hwf hfetch hstor hnext hea hdec
  have hstep : stepWith m s = .next (s.storedAt ea) := by
    rcases hstor with ⟨hdir, rfl⟩ | ⟨hind, hptr⟩
    · rw [stepWith_of_decoded hlive hfetch hdir, exec_storDir]
    · obtain rfl := Except.ok.inj ((indirectAddr_eq s x).symm.trans hptr)
      rw [stepWith_of_decoded hlive hfetch hind, exec_storInd_inside ((inMemory_iff _).2 hea)]
  have hfetched := fetch_storedAt_next hwf hea hnext
  exact ⟨_, hstep, hfetched, stepWith_of_decoded rfl hfetched hdec⟩

/-- Settles O36: the comparison keeps memory, so the branch is the one that stood there, and it reads the `Z` just set. -/
theorem compareThenBranchGoesIffEqual : Obligations.CompareThenBranchGoesIffEqual := by
  intro m s v w e x hlive _ hfetch hcmp hread hbreq
  have hstep : stepWith m s = .next (s.comparedWith (s.mem.readWord e.toNat)) := by
    rw [stepWith_of_decoded hlive hfetch hcmp, exec_cmpDir]
  refine ⟨_, hstep, ?_⟩
  have hfetched : (s.comparedWith (s.mem.readWord e.toNat)).fetch = .ok w := hread
  rw [stepWith_of_decoded rfl hfetched hbreq, exec_breq]
  have hpc : s.pc + 1 + 1 = s.pc + 2 := by rw [BitVec.add_assoc]; rfl
  simp only [comparedWith_z, comparedWith_pc, decide_eq_true_eq, hpc]
  rfl

end Sys2Proof.Machine
end

section
/-! PROOF. The ends of a live step (spec 40_execution_cycle.md R50 to R55): a fault of the fetch, the decode or an indirect
pointer, the halt, or a commit that advances. Said once for the execute phase and once for the step; the statuses, the next
`PC` and the frame of a fault are read off from there. -/

namespace Sys2Proof.Machine

/-- The next `PC` of the instructions (R55). -/
def State.pcAfter (s : State) : Instr → Word
  | .jump x => zext16 x
  | .breq x => if s.z then zext16 x else s.pc + 1
  | .halt => s.pc
  | _ => s.pc + 1

/-- The instruction is an indirect form whose pointer lies outside memory (R57). -/
def State.PointerFaults (s : State) (i : Instr) : Prop :=
  ∃ x, (i = .loadInd x ∨ i = .storInd x) ∧ inMemory (s.pointerAt x) = false

theorem pointerFaults_loadInd_iff (s : State) (x : Byte) :
    s.PointerFaults (.loadInd x) ↔ inMemory (s.pointerAt x) = false := by
  simp [State.PointerFaults]

theorem pointerFaults_storInd_iff (s : State) (x : Byte) :
    s.PointerFaults (.storInd x) ↔ inMemory (s.pointerAt x) = false := by
  simp [State.PointerFaults]

/-- Only the indirect forms follow a pointer. -/
theorem not_pointerFaults_of_form {s : State} {i : Instr} (h : i.form ∉ [.loadInd, .storInd]) : ¬ s.PointerFaults i := by
  rintro ⟨x, rfl | rfl, -⟩ <;> exact h (by simp [Instr.form])

@[simp] theorem not_pointerFaults_halt (s : State) : ¬ s.PointerFaults .halt :=
  not_pointerFaults_of_form (by decide)

/-- Pending writes of an instruction that goes on: its next `PC`, and a memory write inside memory if any. -/
structure Pending.Advances (p : Pending) (s : State) (i : Instr) : Prop where
  halt : p.halt = false
  nextPc : p.nextPc = s.pcAfter i
  write : ∀ a v, p.write = some (a, v) → inMemory a = true

theorem advances_of_no_write {p : Pending} {s : State} {i : Instr} (hhalt : p.halt = false)
    (hpc : p.nextPc = s.pcAfter i) (hwrite : p.write = none) : p.Advances s i :=
  ⟨hhalt, hpc, fun _ _ h => nomatch hwrite.symm.trans h⟩

theorem advances_store {s : State} {i : Instr} {a : Word} (hpc : s.pc + 1 = s.pcAfter i) (ha : inMemory a = true)
    (v : Word) : Pending.Advances { s.pending with write := some (a, v) } s i :=
  ⟨rfl, hpc, fun _ _ h => (Prod.mk.inj (Option.some.inj h)).1 ▸ ha⟩

theorem Pending.Advances.commit_status {p : Pending} {s : State} {i : Instr} (h : p.Advances s i) :
    (s.commit p).status = .running := by
  rw [Machine.commit_status, h.halt]
  rfl

theorem Pending.Advances.commit_wf {p : Pending} {s : State} {i : Instr} (h : p.Advances s i) (hwf : s.mem.wf) :
    (s.commit p).mem.wf := by
  rw [commit_mem]
  cases hw : p.write with
  | none => exact hwf
  | some wr => exact Memory.wf_writeWord hwf ((inMemory_iff _).1 (h.write wr.1 wr.2 hw)) wr.2

/-- The execute phase halts, takes the fault of a pointer, or commits and goes on. -/
theorem exec_ends (i : Instr) (s : State) :
    (i = .halt ∧ exec i s = .next { s with status := .halted }) ∨
    (s.PointerFaults i ∧ exec i s = .next (s.takeFault .outOfBounds)) ∨
    (i ≠ .halt ∧ ¬ s.PointerFaults i ∧ ∃ p, Pending.Advances p s i ∧ exec i s = .next (s.commit p)) := by
  rw [exec_eq]
  cases i with
  | halt => exact .inl ⟨rfl, rfl⟩
  | loadImm | loadDir | addImm | addDir | cmpImm | cmpDir | breq | jump =>
    exact .inr (.inr ⟨nofun, not_pointerFaults_of_form (by simp [Instr.form]), _, advances_of_no_write rfl rfl rfl, rfl⟩)
  | storDir x =>
    exact .inr (.inr ⟨nofun, not_pointerFaults_of_form (by simp [Instr.form]), _,
      advances_store rfl (inMemory_zext16 x) _, rfl⟩)
  | loadInd x =>
    cases hp : inMemory (s.pointerAt x) with
    | false => exact .inr (.inl ⟨(pointerFaults_loadInd_iff s x).2 hp, if_neg (Bool.eq_false_iff.1 hp)⟩)
    | true =>
      exact .inr (.inr ⟨nofun, by simp [pointerFaults_loadInd_iff, hp], _, advances_of_no_write rfl rfl rfl, if_pos hp⟩)
  | storInd x =>
    cases hp : inMemory (s.pointerAt x) with
    | false => exact .inr (.inl ⟨(pointerFaults_storInd_iff s x).2 hp, if_neg (Bool.eq_false_iff.1 hp)⟩)
    | true =>
      exact .inr (.inr ⟨nofun, by simp [pointerFaults_storInd_iff, hp], _, advances_store rfl hp _, if_pos hp⟩)

/-- The ways a step from a live state can go, each with what it finds at `PC` and the state it leads to. -/
inductive LiveStep (m : OpMap) (s : State) : State → Prop where
  | fetchFault (hpc : inMemory s.pc = false) : LiveStep m s (s.takeFault .outOfBounds)
  | invalid {e : DecodeReject} (hpc : inMemory s.pc = true) (hdec : decodeWith m s.wordAtPc = .error e) :
      LiveStep m s (s.takeFault .invalidOpcode)
  | halts (hpc : inMemory s.pc = true) (hdec : decodeWith m s.wordAtPc = .ok .halt) :
      LiveStep m s { s with status := .halted }
  | pointerFault {i : Instr} (hpc : inMemory s.pc = true) (hdec : decodeWith m s.wordAtPc = .ok i)
      (hptr : s.PointerFaults i) : LiveStep m s (s.takeFault .outOfBounds)
  | advances {i : Instr} {p : Pending} (hpc : inMemory s.pc = true) (hdec : decodeWith m s.wordAtPc = .ok i)
      (hhalt : i ≠ .halt) (hptr : ¬ s.PointerFaults i) (hp : p.Advances s i) : LiveStep m s (s.commit p)

theorem exists_liveStep (m : OpMap) {s : State} (hlive : s.status.terminal = false) :
    ∃ t, stepWith m s = .next t ∧ LiveStep m s t := by
  rcases stepWith_cases m s with ⟨ht, -⟩ | ⟨-, hpc, -, hstep⟩ | ⟨e, -, hpc, -, hdec, hstep⟩ | ⟨i, -, hpc, -, hdec, hstep⟩
  · exact nomatch hlive.symm.trans ht
  · exact ⟨_, hstep, .fetchFault hpc⟩
  · exact ⟨_, hstep, .invalid hpc hdec⟩
  · rcases exec_ends i s with ⟨rfl, he⟩ | ⟨hptr, he⟩ | ⟨hhalt, hptr, p, hp, he⟩
    · exact ⟨_, hstep.trans he, .halts hpc hdec⟩
    · exact ⟨_, hstep.trans he, .pointerFault hpc hdec hptr⟩
    · exact ⟨_, hstep.trans he, .advances hpc hdec hhalt hptr hp⟩

theorem liveStep_of_stepWith {m : OpMap} {s t : State} (hlive : s.status.terminal = false)
    (h : stepWith m s = .next t) : LiveStep m s t := by
  obtain ⟨u, hu, hstep⟩ := exists_liveStep m hlive
  exact Host.Outcome.next.inj (hu.symm.trans h) ▸ hstep

/-! ### What the fetch finds -/

theorem fetch_eq_ok_iff (s : State) (w : Word) : s.fetch = .ok w ↔ inMemory s.pc = true ∧ s.wordAtPc = w := by
  rcases memRead_cases s s.pc with ⟨h, hread⟩ | ⟨h, hread⟩
  · exact (Eq.congr_left hread).trans (by simp [h, State.wordAtPc])
  · exact (Eq.congr_left hread).trans (by simp [h])

/-- What a fetched word is said to satisfy, the word at `PC` satisfies. -/
theorem exists_fetched_iff {s : State} {P : Word → Prop} :
    (∃ w, s.fetch = .ok w ∧ P w) ↔ inMemory s.pc = true ∧ P s.wordAtPc := by
  simp [fetch_eq_ok_iff, and_assoc]

/-! ### The statements about one step -/

/-- The advance of R12 as arithmetic modulo 2^16. -/
theorem ofNat_succ_eq (a : Word) : BitVec.ofNat 16 ((a.toNat + 1) % 2 ^ 16) = a + 1 :=
  addWords_eq a 1

/-- Settles O14: a halt keeps the `PC`, a commit that goes on takes its form's next `PC`, and a fault is no commit. -/
theorem pcAfterCommitOfEveryForm : Obligations.PcAfterCommitOfEveryForm := by
  intro i s t _ h hstatus
  simp only [ofNat_succ_eq]
  rcases exec_ends i s with ⟨rfl, he⟩ | ⟨-, he⟩ | ⟨-, -, p, hp, he⟩ <;>
    obtain rfl := Host.Outcome.next.inj (he.symm.trans h)
  · rfl
  · rcases hstatus with hrun | hhalt
    · exact nomatch hrun
    · exact nomatch hhalt
  · rw [commit_pc, hp.nextPc]
    cases i <;> rfl

theorem pcAfter_of_form {i : Instr} (h : i.form ∉ [.breq, .jump, .halt]) (s : State) : s.pcAfter i = s.pc + 1 := by
  cases i with
  | breq | jump | halt => exact absurd (by simp [Instr.form]) h
  | _ => rfl

/-- Settles O32: the fetch on both sides of the bound, and the advance from the last cell past it. -/
theorem fetchFaultsExactlyPastMemory : Obligations.FetchFaultsExactlyPastMemory := by
  intro s hlive
  refine ⟨fetch_inside, fun hpc => ⟨fetch_outside hpc, fun m => stepWith_of_fetch_error hlive (fetch_outside hpc)⟩,
    fun hpc i t hform h hrun => ?_⟩
  rcases exec_ends i s with ⟨rfl, -⟩ | ⟨-, he⟩ | ⟨-, -, p, hp, he⟩
  · exact absurd (by decide) hform
  · obtain rfl := Host.Outcome.next.inj (he.symm.trans h)
    exact nomatch hrun
  · obtain rfl := Host.Outcome.next.inj (he.symm.trans h)
    rw [commit_pc, hp.nextPc, pcAfter_of_form hform, hpc]
    rfl

/-- A read that faults is outside memory, and its fault is OutOfBounds. -/
theorem outside_of_memRead_error {s : State} {a : Word} {r : Fault} (h : s.memRead a = .error r) :
    inMemory a = false ∧ r = .outOfBounds := by
  rcases memRead_cases s a with ⟨-, hread⟩ | ⟨ha, hread⟩
  · exact nomatch hread.symm.trans h
  · exact ⟨ha, Except.error.inj (h.symm.trans hread)⟩

theorem outside_of_memWrite_error {a v : Word} {r : Fault} (h : memWrite a v = .error r) :
    inMemory a = false ∧ r = .outOfBounds := by
  rcases memWrite_cases a v with ⟨-, hwrite⟩ | ⟨ha, hwrite⟩
  · exact nomatch hwrite.symm.trans h
  · exact ⟨ha, Except.error.inj (h.symm.trans hwrite)⟩

/-- A live step that ends Faulted has changed nothing but `STATUS`. -/
theorem LiveStep.eq_takeFault {m : OpMap} {s t : State} (h : LiveStep m s t) {r : Fault} (ht : t.status = .faulted r) :
    t = s.takeFault r := by
  cases h with
  | fetchFault | invalid | pointerFault => exact congrArg s.takeFault (Status.faulted.inj ht)
  | halts => exact nomatch ht
  | advances _ _ _ _ hp => exact nomatch hp.commit_status.symm.trans ht

/-- Settles O33: the phases in order, and the converse from the ends of a live step. -/
theorem faultingStepChangesOnlyStatus : Obligations.FaultingStepChangesOnlyStatus := by
  intro m s hlive
  refine ⟨fun r hfetch => stepWith_of_fetch_error hlive hfetch,
    fun w e hfetch hdec => stepWith_of_invalid_word hlive hfetch hdec, fun w x r hfetch hdec hread => ?_,
    fun w x ea r hfetch hdec hptr hwrite => ?_, fun t r hstep ht => ?_⟩
  · rw [indirectValue_eq] at hread
    obtain ⟨hp, rfl⟩ := outside_of_memRead_error hread
    rw [stepWith_of_decoded hlive hfetch hdec]
    exact exec_loadInd_outside hp
  · obtain ⟨hp, rfl⟩ := outside_of_memWrite_error hwrite
    obtain rfl := Except.ok.inj ((indirectAddr_eq s x).symm.trans hptr)
    rw [stepWith_of_decoded hlive hfetch hdec]
    exact exec_storInd_outside hp
  · exact ⟨(liveStep_of_stepWith hlive hstep).eq_takeFault ht, by rw [ht]; rfl⟩

theorem LiveStep.status_ne_ready {m : OpMap} {s t : State} (h : LiveStep m s t) : t.status ≠ .ready := by
  cases h with
  | fetchFault | invalid | pointerFault | halts => exact nofun
  | advances _ _ _ _ hp => exact fun ht => nomatch hp.commit_status.symm.trans ht

theorem LiveStep.halted_iff {m : OpMap} {s t : State} (h : LiveStep m s t) :
    t.status = .halted ↔ inMemory s.pc = true ∧ decodeWith m s.wordAtPc = .ok .halt := by
  cases h with
  | fetchFault hpc => simp [hpc]
  | invalid hpc hdec => simp [hdec]
  | halts hpc hdec => simp [hpc, hdec]
  | @pointerFault i hpc hdec hptr =>
    have hhalt : i ≠ .halt := fun h => not_pointerFaults_halt s (h ▸ hptr)
    simp [hdec, hhalt]
  | advances hpc hdec hhalt _ hp => simp [hp.halt, hdec, hhalt]

theorem LiveStep.invalid_iff {m : OpMap} {s t : State} (h : LiveStep m s t) :
    t.status = .faulted .invalidOpcode ↔ inMemory s.pc = true ∧ ∃ e, decodeWith m s.wordAtPc = .error e := by
  cases h with
  | fetchFault hpc => simp [hpc]
  | invalid hpc hdec => simp [hpc, hdec]
  | halts hpc hdec => simp [hdec]
  | pointerFault hpc hdec => simp [hdec]
  | advances hpc hdec _ _ hp => simp [hp.halt, hdec]

theorem LiveStep.outOfBounds_iff {m : OpMap} {s t : State} (h : LiveStep m s t) :
    t.status = .faulted .outOfBounds ↔
      inMemory s.pc = false ∨ (inMemory s.pc = true ∧ ∃ i, decodeWith m s.wordAtPc = .ok i ∧ s.PointerFaults i) := by
  cases h with
  | fetchFault hpc => simp [hpc]
  | invalid hpc hdec => simp [hpc, hdec]
  | halts hpc hdec => simp [hpc, hdec]
  | pointerFault hpc hdec hptr => simp [hpc, hdec, hptr]
  | advances hpc hdec _ hptr hp => simp [hp.halt, hpc, hdec, hptr]

/-- The cause of a pointer's fault, in the words of R57. -/
theorem exists_pointerFaults_iff {m : OpMap} {s : State} {w : Word} :
    (∃ i, decodeWith m w = .ok i ∧ s.PointerFaults i) ↔
      ∃ x, (decodeWith m w = .ok (.loadInd x) ∨ decodeWith m w = .ok (.storInd x)) ∧
        0x100 ≤ (s.mem.readWord x.toNat).toNat := by
  constructor
  · rintro ⟨i, hdec, x, rfl | rfl, hp⟩
    · exact ⟨x, .inl hdec, (inMemory_false_iff _).1 hp⟩
    · exact ⟨x, .inr hdec, (inMemory_false_iff _).1 hp⟩
  · rintro ⟨x, hdec | hdec, hp⟩
    · exact ⟨_, hdec, x, .inl rfl, (inMemory_false_iff _).2 hp⟩
    · exact ⟨_, hdec, x, .inr rfl, (inMemory_false_iff _).2 hp⟩

/-- Settles O34: the ends of a live step, each cause read at the `PC`. -/
theorem statusAfterStepByCause : Obligations.StatusAfterStepByCause := by
  intro m s t hlive hstep
  have hend := liveStep_of_stepWith hlive hstep
  simp only [exists_and_left, exists_fetched_iff, ← exists_pointerFaults_iff]
  exact ⟨hend.halted_iff, hend.invalid_iff, hend.outOfBounds_iff.trans (or_congr_left (inMemory_false_iff _)),
    hend.status_ne_ready⟩

end Sys2Proof.Machine
end

section
/-! PROOF. The machine's invariant (spec 10_state.md R12; 40_execution_cycle.md section 3; 60_exceptions.md section 1): it holds
at reset, each end of a live step keeps it, and so does every operation of the host; what a reachable state shows of its
status is then read off. -/

namespace Sys2Proof.Machine

/-- A machine at the entry point with canonical memory has the invariant: Ready is explained, and no other status is there. -/
theorem inv_of_ready {m : OpMap} {s : State} (hwf : s.mem.wf) (hpc : s.pc = Config.resetPc) (hs : s.status = .ready) :
    s.Inv m where
  memWf := hwf
  pcBound := by rw [hpc]; decide
  readyAtEntry _ := hpc
  pastEnd h := absurd h (by rw [hpc]; decide)
  haltedOnHalt h := nomatch hs.symm.trans h
  faultedOnInvalid h := nomatch hs.symm.trans h
  faultedOnBounds h := nomatch hs.symm.trans h

/-- Running explains itself: it needs canonical memory and the bound on `PC` only. -/
theorem inv_of_running {m : OpMap} {s : State} (hwf : s.mem.wf) (hpc : s.pc.toNat ≤ Config.memWords)
    (hs : s.status = .running) : s.Inv m where
  memWf := hwf
  pcBound := hpc
  readyAtEntry h := nomatch hs.symm.trans h
  pastEnd _ := .inl hs
  haltedOnHalt h := nomatch hs.symm.trans h
  faultedOnInvalid h := nomatch hs.symm.trans h
  faultedOnBounds h := nomatch hs.symm.trans h

theorem inv_halted {m : OpMap} {s : State} (hwf : s.mem.wf) (hpc : s.pc.toNat < Config.memWords)
    (hdec : decodeWith m s.wordAtPc = .ok .halt) : State.Inv m { s with status := .halted } where
  memWf := hwf
  pcBound := Nat.le_of_lt hpc
  readyAtEntry := nofun
  pastEnd h := absurd h (Nat.ne_of_lt hpc)
  haltedOnHalt _ := hdec
  faultedOnInvalid := nofun
  faultedOnBounds := nofun

theorem inv_invalidOpcode {m : OpMap} {s : State} {e : DecodeReject} (hwf : s.mem.wf) (hpc : s.pc.toNat < Config.memWords)
    (hdec : decodeWith m s.wordAtPc = .error e) : (s.takeFault .invalidOpcode).Inv m where
  memWf := hwf
  pcBound := Nat.le_of_lt hpc
  readyAtEntry := nofun
  pastEnd h := absurd h (Nat.ne_of_lt hpc)
  haltedOnHalt := nofun
  faultedOnInvalid _ := ⟨e, hdec⟩
  faultedOnBounds := nofun

theorem inv_outOfBounds {m : OpMap} {s : State} (hwf : s.mem.wf) (hpc : s.pc.toNat ≤ Config.memWords)
    (hcause : s.pc.toNat = Config.memWords ∨
      ∃ x, (decodeWith m s.wordAtPc = .ok (.loadInd x) ∨ decodeWith m s.wordAtPc = .ok (.storInd x)) ∧
        inMemory (s.pointerAt x) = false) : (s.takeFault .outOfBounds).Inv m where
  memWf := hwf
  pcBound := hpc
  readyAtEntry := nofun
  pastEnd _ := .inr rfl
  haltedOnHalt := nofun
  faultedOnInvalid := nofun
  faultedOnBounds _ := hcause

/-- From inside memory no instruction takes the `PC` past 0x0100: it advances by one or lands on an operand byte. -/
theorem pcAfter_le {s : State} (hpc : s.pc.toNat < Config.memWords) (i : Instr) :
    (s.pcAfter i).toNat ≤ Config.memWords := by
  have hbound : Config.memWords = 256 := rfl
  have hsucc : (s.pc + 1).toNat ≤ Config.memWords := by
    rw [toNat_succ_of_lt (by omega)]
    exact hpc
  have htarget (x : Byte) : (zext16 x).toNat ≤ Config.memWords := by
    rw [zext16_toNat]
    exact Nat.le_of_lt x.isLt
  cases i with
  | jump x => exact htarget x
  | halt => exact Nat.le_of_lt hpc
  | breq x =>
    show (if s.z = true then zext16 x else s.pc + 1).toNat ≤ Config.memWords
    split
    · exact htarget x
    · exact hsucc
  | _ => exact hsucc

theorem LiveStep.keeps_inv {m : OpMap} {s t : State} (hinv : s.Inv m) (h : LiveStep m s t) : t.Inv m := by
  have hwf := hinv.memWf
  have hle := hinv.pcBound
  cases h with
  | fetchFault hpc => exact inv_outOfBounds hwf hle (.inl (Nat.le_antisymm hle ((inMemory_false_iff _).1 hpc)))
  | invalid hpc hdec => exact inv_invalidOpcode hwf ((inMemory_iff _).1 hpc) hdec
  | halts hpc hdec => exact inv_halted hwf ((inMemory_iff _).1 hpc) hdec
  | pointerFault hpc hdec hptr =>
    obtain ⟨x, rfl | rfl, hx⟩ := hptr
    · exact inv_outOfBounds hwf hle (.inr ⟨x, .inl hdec, hx⟩)
    · exact inv_outOfBounds hwf hle (.inr ⟨x, .inr hdec, hx⟩)
  | @advances i p hpc _ _ _ hp =>
    refine inv_of_running (hp.commit_wf hwf) ?_ hp.commit_status
    rw [commit_pc, hp.nextPc]
    exact pcAfter_le ((inMemory_iff _).1 hpc) i

/-- Every step keeps the invariant, under every map: a terminal one changes nothing, a live one ends in one of five ways. -/
theorem stepWith_keeps_inv {m : OpMap} {s t : State} (hinv : s.Inv m) (h : stepWith m s = .next t) : t.Inv m := by
  cases hs : s.status.terminal with
  | true =>
    obtain rfl := Host.Outcome.next.inj ((stepWith_of_terminal m hs).symm.trans h)
    exact hinv
  | false => exact (liveStep_of_stepWith hs h).keeps_inv hinv

/-- Settles O37, at the reference map. -/
theorem stepKeepsTheMachineInvariant : Obligations.StepKeepsTheMachineInvariant :=
  fun _ _ hinv h => stepWith_keeps_inv hinv h

/-! ### Runs and host operations -/

/-- What every step keeps, a run keeps. -/
theorem runLoop_keeps {m : OpMap} {P : State → Prop} (hstep : ∀ s t, P s → stepWith m s = .next t → P t) {n : Nat}
    {s t : State} {reply : RunReply} (hs : P s) (h : runLoop m n s = .next (t, reply)) : P t := by
  induction n generalizing s with
  | zero =>
    obtain ⟨rfl, -⟩ := Prod.mk.inj (Host.Outcome.next.inj h)
    exact hs
  | succ n ih =>
    cases hu : stepWith m s with
    | next u =>
      rw [runLoop_succ hu] at h
      split at h
      · exact ih (hstep s u hs hu) h
      · obtain ⟨rfl, -⟩ := Prod.mk.inj (Host.Outcome.next.inj h)
        exact hstep s _ hs hu
    | fault | refused => rw [runLoop, hu] at h; exact nomatch h

theorem run_zero (m : OpMap) (s : State) : run m 0 s = .next (s, .stepped s.status.reply) := rfl

theorem run_of_pos (m : OpMap) {n : Nat} (hn : 0 < n) (s : State) : run m n s = runLoop m n s :=
  if_neg (Nat.ne_of_gt hn)

theorem run_keeps {m : OpMap} {P : State → Prop} (hstep : ∀ s t, P s → stepWith m s = .next t → P t) {n : Nat}
    {s t : State} {reply : RunReply} (hs : P s) (h : run m n s = .next (t, reply)) : P t := by
  rcases Nat.eq_zero_or_pos n with rfl | hn
  · obtain ⟨rfl, -⟩ := Prod.mk.inj (Host.Outcome.next.inj h)
    exact hs
  · exact runLoop_keeps hstep hs ((run_of_pos m hn s).symm.trans h)

/-- What every step keeps, and every load that copies from Ready, every call of the host interface keeps. -/
theorem perform_keeps {m : OpMap} {P : State → Prop} (hstep : ∀ s t, P s → stepWith m s = .next t → P t)
    (hload : ∀ image origin s, P s → s.status = .ready → loadFits image origin = true →
      P { s with mem := s.mem.writeWords origin.toNat image })
    {op : HostOp} {s t : State} {reply : HostReply} (hs : P s) (h : perform m op s = .next (t, reply)) : P t := by
  cases op with
  | load image origin =>
    obtain ⟨r, hr, hreply⟩ := onNext_eq_next.1 h
    obtain ⟨rfl, -⟩ := Prod.mk.inj hreply
    rcases load_cases image origin s with ⟨hready, hfits, hl⟩ | ⟨-, -, hl⟩ | ⟨-, hl⟩
    · obtain rfl := Host.Outcome.next.inj (hl.symm.trans hr)
      exact hload image origin s hs hready hfits
    · obtain rfl := Host.Outcome.next.inj (hl.symm.trans hr)
      exact hs
    · exact nomatch hl.symm.trans hr
  | step =>
    obtain ⟨u, hu, hreply⟩ := onNext_eq_next.1 h
    obtain ⟨rfl, -⟩ := Prod.mk.inj hreply
    exact hstep s u hs hu
  | run n =>
    obtain ⟨r, hr, hreply⟩ := onNext_eq_next.1 h
    obtain ⟨rfl, -⟩ := Prod.mk.inj hreply
    exact run_keeps hstep hs hr
  | inspect target =>
    obtain ⟨v, -, hreply⟩ := onNext_eq_next.1 h
    obtain ⟨rfl, -⟩ := Prod.mk.inj hreply
    exact hs

/-- Settles O38: a load that copies leaves a Ready machine with canonical memory at the entry point. -/
theorem hostOperationKeepsTheMachineInvariant : Obligations.HostOperationKeepsTheMachineInvariant := by
  intro m op s t reply hinv h
  refine perform_keeps (P := State.Inv m) (fun _ _ => stepWith_keeps_inv) (fun image origin u hu hready hfits => ?_) hinv h
  obtain ⟨-, hfit⟩ := (loadFits_iff image origin).1 hfits
  exact inv_of_ready (Memory.wf_writeWords hu.memWf hfit) (hu.readyAtEntry hready) hready

theorem construct_inv (m : OpMap) (acc0 : Word) (z0 : Bool) (mem0 : Byte → Word) : (construct acc0 z0 mem0).Inv m :=
  inv_of_ready (by rw [construct_mem]; exact Memory.wf_ofCells mem0) (construct_pc ..) (construct_status ..)

/-- Settles O39: the reset state is one of the constructed ones. -/
theorem resetHasTheMachineInvariant : Obligations.ResetHasTheMachineInvariant :=
  fun m => ⟨resetIsConstructionAtNamedValues ▸ construct_inv m .., construct_inv m⟩

theorem reachable_inv {m : OpMap} {s : State} (h : Reachable m s) : s.Inv m := by
  induction h with
  | construct acc0 z0 mem0 => exact construct_inv m acc0 z0 mem0
  | perform _ hperform ih => exact hostOperationKeepsTheMachineInvariant m _ _ _ _ ih hperform

/-- A `PC` that the invariant bounds lies inside memory in every status but Running and Faulted(OutOfBounds). -/
theorem State.Inv.pc_inside {m : OpMap} {s : State} (h : s.Inv m) (hrun : s.status ≠ .running)
    (hbounds : s.status ≠ .faulted .outOfBounds) : s.pc.toNat < Config.memWords :=
  Nat.lt_of_le_of_ne h.pcBound fun hend => (h.pastEnd hend).elim hrun hbounds

/-- Settles O40: the invariant's clauses, with the fetch of the word they speak of. -/
theorem reachableStateExplainsItsStatus : Obligations.ReachableStateExplainsItsStatus := by
  intro m s hreach
  have hinv := reachable_inv hreach
  refine ⟨hinv.pcBound, hinv.readyAtEntry, fun hs => ?_, fun hs => ?_, fun hs => ?_⟩
  · exact ⟨_, fetch_inside (hinv.pc_inside (by simp [hs]) (by simp [hs])), hinv.haltedOnHalt hs⟩
  · obtain ⟨e, he⟩ := hinv.faultedOnInvalid hs
    exact ⟨_, e, fetch_inside (hinv.pc_inside (by simp [hs]) (by simp [hs])), he⟩
  · rcases Nat.lt_or_eq_of_le hinv.pcBound with hpc | hpc
    · rcases hinv.faultedOnBounds hs with hend | ⟨x, hdec, hx⟩
      · exact absurd hend (Nat.ne_of_lt hpc)
      · exact .inr ⟨_, x, fetch_inside hpc, hdec, (inMemory_false_iff _).1 hx⟩
    · exact .inl ⟨BitVec.eq_of_toNat_eq hpc, fetch_outside (Nat.le_of_eq hpc.symm)⟩

end Sys2Proof.Machine
end

section
/-! PROOF. The host interface (spec 70_reset_and_hazards.md R92 to R96): `load` and inspection on both sides of their bounds, and
`run` as bounded repeated steps. -/

namespace Sys2Proof.Machine

theorem load_refused {s : State} (hs : s.status ≠ .ready) (image : List Word) (origin : Word) :
    load image origin s = .refused .loadAfterFirstStep :=
  if_neg hs

/-- Settles O43: a copy writes its own cells only, and the bounds test decides between it and the failure. -/
theorem loadCopiesAllOrNothing : Obligations.LoadCopiesAllOrNothing := by
  intro image origin s hwf
  refine ⟨fun hs horigin hlen => ?_, fun hs hout => ?_, fun hs => load_refused hs image origin⟩
  · have hfits := (loadFits_iff image origin).2 ⟨horigin, hlen⟩
    exact ⟨_, (if_pos hs).trans (if_pos hfits), rfl, fun k hk => Memory.readWord_writeWords_inside hwf.1 _ hk,
      fun a ha => Memory.readWord_writeWords_outside hwf.1 ha⟩
  · have hfits : ¬ loadFits image origin = true := by
      rw [loadFits_iff]
      rintro ⟨horigin, hlen⟩
      exact hout.elim (Nat.not_le.2 horigin) (Nat.not_lt.2 hlen)
    exact (if_pos hs).trans (if_neg hfits)

/-- No step leads to Ready: a terminal state is not Ready, and no end of a live step is. -/
theorem stepWith_status_ne_ready {m : OpMap} {s t : State} (h : stepWith m s = .next t) : t.status ≠ .ready := by
  cases hs : s.status.terminal with
  | true =>
    obtain rfl := Host.Outcome.next.inj ((stepWith_of_terminal m hs).symm.trans h)
    exact fun hready => nomatch (hready ▸ hs : Status.ready.terminal = true)
  | false => exact (liveStep_of_stepWith hs h).status_ne_ready

/-- Settles O44: what every step leads to, every other call keeps, and the one call that writes memory is refused. -/
theorem hostNeverWritesMemoryAfterTheFirstStep : Obligations.HostNeverWritesMemoryAfterTheFirstStep := by
  refine ⟨fun m s t => stepWith_status_ne_ready, fun m op s t reply hs h => ?_, fun m image origin s hs => ?_,
    fun m target s t reply h => ?_⟩
  · exact perform_keeps (P := fun u => u.status ≠ .ready) (fun _ _ _ => stepWith_status_ne_ready)
      (fun _ _ _ hu hready => absurd hready hu) hs h
  · rw [perform, load_refused hs]
    rfl
  · obtain ⟨v, -, hreply⟩ := onNext_eq_next.1 h
    exact (Prod.mk.inj hreply).1.symm

/-- Settles O45: the address decides for a cell, and a register always answers. -/
theorem inspectionReadsWithoutEffect : Obligations.InspectionReadsWithoutEffect := fun _ =>
  ⟨fun a ha => if_pos ((inMemory_iff a).2 ha), fun a ha => if_neg (Bool.eq_false_iff.1 ((inMemory_false_iff a).2 ha)),
    rfl, rfl, rfl, rfl⟩

theorem exists_stepWith_next (m : OpMap) (s : State) : ∃ t, stepWith m s = .next t := by
  cases hs : s.status.terminal with
  | true => exact ⟨s, stepWith_of_terminal m hs⟩
  | false =>
    obtain ⟨t, ht, -⟩ := exists_liveStep m hs
    exact ⟨t, ht⟩

theorem exists_runLoop_next (m : OpMap) (n : Nat) (s : State) : ∃ r, runLoop m n s = .next r := by
  induction n generalizing s with
  | zero => exact ⟨_, rfl⟩
  | succ n ih =>
    obtain ⟨t, ht⟩ := exists_stepWith_next m s
    rw [runLoop_succ ht]
    split
    · exact ih t
    · exact ⟨_, rfl⟩

/-- Settles O35. -/
theorem everyStepAndRunAnswersANextState : Obligations.EveryStepAndRunAnswersANextState := by
  intro m s
  refine ⟨exists_stepWith_next m s, fun n => ?_⟩
  rcases Nat.eq_zero_or_pos n with rfl | hn
  · exact ⟨_, run_zero m s⟩
  · rw [run_of_pos m hn]
    exact exists_runLoop_next m n s

theorem reply_eq_continues_iff (st : Status) : st.reply = .continues ↔ st.terminal = false := by
  cases st <;> simp [Status.reply, Status.terminal]

/-- Where a loop of at most `n` steps from `s` ends: after all `n` of them, each going on, or in a terminal state; the steps are
those of the host's own run. -/
theorem runLoop_ends {n : Nat} {s t : State} {reply : RunReply} (h : runLoop refOpmap n s = .next (t, reply)) :
    (reply = .stepLimitExceeded ∧ (0 < n → t.status = .running) ∧ Sys2Proof.core.run n s = .next t) ∨
    (reply = .stepped t.status.reply ∧ t.status.terminal = true ∧ ∃ k, k ≤ n ∧ Sys2Proof.core.run k s = .next t) := by
  induction n generalizing s with
  | zero =>
    obtain ⟨rfl, rfl⟩ := Prod.mk.inj (Host.Outcome.next.inj h)
    exact .inl ⟨rfl, nofun, rfl⟩
  | succ n ih =>
    obtain ⟨u, hu⟩ := exists_stepWith_next refOpmap s
    have hrun (k : Nat) : Sys2Proof.core.run (k + 1) s = Sys2Proof.core.run k u :=
      core_run_succ (M := Sys2Proof.core) hu
    rw [runLoop_succ hu] at h
    by_cases hgo : u.status.reply = .continues
    · rw [if_pos hgo] at h
      rcases ih h with ⟨hreply, hstatus, hcore⟩ | ⟨hreply, hterm, k, hk, hcore⟩
      · refine .inl ⟨hreply, fun _ => ?_, (hrun n).trans hcore⟩
        rcases Nat.eq_zero_or_pos n with rfl | hn
        · obtain rfl := Host.Outcome.next.inj hcore
          exact ((terminal_eq_false_iff _).1 ((reply_eq_continues_iff _).1 hgo)).resolve_left (stepWith_status_ne_ready hu)
        · exact hstatus hn
      · exact .inr ⟨hreply, hterm, k + 1, Nat.succ_le_succ hk, (hrun k).trans hcore⟩
    · rw [if_neg hgo] at h
      obtain ⟨rfl, rfl⟩ := Prod.mk.inj (Host.Outcome.next.inj h)
      have hterm : u.status.terminal = true := by
        rwa [reply_eq_continues_iff, Bool.not_eq_false] at hgo
      exact .inr ⟨rfl, hterm, 1, Nat.le_add_left 1 n, hrun 0⟩

/-- Settles O46: `run(0)` takes no step, and a longer run is the loop. -/
theorem runIsBoundedRepeatedStep : Obligations.RunIsBoundedRepeatedStep := by
  intro n s t reply h
  rcases Nat.eq_zero_or_pos n with rfl | hn
  · obtain ⟨rfl, rfl⟩ := Prod.mk.inj (Host.Outcome.next.inj h)
    exact ⟨0, Nat.le_refl 0, rfl, nofun, fun r hr => ⟨(RunReply.stepped.inj hr).symm, .inr rfl⟩⟩
  · rcases runLoop_ends ((run_of_pos _ hn s).symm.trans h) with ⟨rfl, hstatus, hcore⟩ | ⟨rfl, hterm, k, hk, hcore⟩
    · exact ⟨n, Nat.le_refl n, hcore, fun _ => ⟨rfl, hn, hstatus hn⟩, nofun⟩
    · exact ⟨k, hk, hcore, nofun, fun r hr => ⟨(RunReply.stepped.inj hr).symm, .inl hterm⟩⟩

/-- A loop that its limit stopped goes on where it stopped. -/
theorem runLoop_add {m : OpMap} {n : Nat} (k : Nat) {s t : State} (h : runLoop m n s = .next (t, .stepLimitExceeded)) :
    runLoop m (n + k) s = runLoop m k t := by
  induction n generalizing s with
  | zero =>
    obtain ⟨rfl, -⟩ := Prod.mk.inj (Host.Outcome.next.inj h)
    rw [Nat.zero_add]
  | succ n ih =>
    obtain ⟨u, hu⟩ := exists_stepWith_next m s
    rw [runLoop_succ hu] at h
    rw [Nat.succ_add, runLoop_succ hu]
    split at h
    · next hgo => rw [if_pos hgo, ih h]
    · exact nomatch (Prod.mk.inj (Host.Outcome.next.inj h)).2

/-- Settles O47: a limit of zero stops no run, so both runs are loops. -/
theorem runResumesAfterStepLimit : Obligations.RunResumesAfterStepLimit := by
  intro m n k s t hk h
  rcases Nat.eq_zero_or_pos n with rfl | hn
  · exact nomatch (Prod.mk.inj (Host.Outcome.next.inj h)).2
  · rw [run_of_pos m hn] at h
    rw [run_of_pos m (Nat.add_pos_left hn k), run_of_pos m hk, runLoop_add k h]

/-- Settles O48: no step is taken, or one that changes nothing and does not continue. -/
theorem terminalStateIsForever : Obligations.TerminalStateIsForever := by
  intro m n s hs
  cases n with
  | zero => exact run_zero m s
  | succ n =>
    have hstop : ¬ s.status.reply = .continues := by
      rw [reply_eq_continues_iff, hs]
      exact nofun
    rw [run_of_pos m n.succ_pos, runLoop_succ (stepWith_of_terminal m hs), if_neg hstop]

/-- Settles O49, by the table of R15. -/
theorem statusBitsAreTheTable : Obligations.StatusBitsAreTheTable :=
  ⟨rfl, rfl, rfl, rfl, rfl⟩

end Sys2Proof.Machine
end
